-- ==== Sys2Proof/Word.lean ====
section
/-! DEFINITION. The word types of the block: one byte of the buffer (spec 00_scope.md R9, 20_memory.md R40). -/

namespace Sys2Proof

/-- One byte of the buffer, bits 7 down to 0, bit 0 least significant (R9, R40). -/
abbrev Byte := BitVec 8

end Sys2Proof
end

