-- ==== Sys2Proof/Config.lean ====
section
/-! DEFINITION. The one open parameter of the block (spec 00_scope.md R8, 92_eei_decisions.md D4, 93 U11). The
other open point, the length and contents of the buffer, is state (`State.len`, `State.buf`). The fixed constants of
R7 stand beside the operations that use them, in Machine/Operands.lean. The file also holds the one free value of the
model. -/

namespace Sys2Proof

/-- What an implementation fixes: `AW`, the width in bits of `OFF`, `LEN` and `ELEN` (R8). Each state carries the
configuration of its block (assumption 1), so that a statement about every state is a statement about every `AW`. -/
structure Config where
  /-- `AW`, at least 4 (R8). -/
  aw : Nat
  deriving DecidableEq, Repr

/-- The number of values an `AW`-bit register has, `2^AW`. -/
def Config.space (c : Config) : Nat := 2 ^ c.aw

/-- DESIGN CHOICE (assumption 1): the value R8 suggests; the reset state is that of a block built with it. -/
def Config.suggested : Config := { aw := 64 }

/-- DESIGN CHOICE (assumption 8): a free value. Where `ADV` is issued with `u(OFF) + u(CNT)` at `2^AW` or more, the spec
states no result for `OFF` (R81, R172); the n-th such `ADV` takes the n-th of these numbers, cut to `AW` bits. It has no
body, so nothing can be proved of what it is. -/
opaque Config.freeCursor : Nat → Nat

end Sys2Proof
end

