-- ==== Sys2Proof/Syntax.lean ====
section
/-! DEFINITION. The commands of the block: one constructor per row of spec/opcode_table.json (30_encoding.md R72,
R73). No command has an operand field: every operand is in a fixed register (R72, R76). -/

namespace Sys2Proof

/-- The eight rows of the command map (R72): six operations and the two reserved codes of R73. -/
inductive Instr where
  /-- `000`: encode `VI` at `BUF[OFF...]` (R84). -/
  | encvi
  /-- `001`: encode `VL` at `BUF[OFF...]` (R88). -/
  | encvl
  /-- `010`: decode a VarInt from `BUF[OFF...]` into `VI` (R98). -/
  | decvi
  /-- `011`: decode a VarLong from `BUF[OFF...]` into `VL` (R102). -/
  | decvl
  /-- `100`: pack `PX`, `PY`, `PZ` into `PW` (R116). -/
  | posenc
  /-- `110`: unpack `PW` into `PX`, `PY`, `PZ` (R124). -/
  | posdec
  /-- `101`: reserved, raises IllegalCommand (R73). -/
  | reserved5
  /-- `111`: reserved, raises IllegalCommand (R73). -/
  | reserved7
  deriving DecidableEq, Repr

end Sys2Proof
end

