-- ==== Sys2Proof/WellFormed.lean ====
section
/-! DEFINITION. The static checks: on a command, on the number that stands for a command word, and on the
implementation's parameter. -/

namespace Sys2Proof

/-- Every command is well formed: the command word has no register, immediate or mode field (R72), so nothing in one
can be out of range. -/
def Instr.wellFormed : Instr → Bool
  | .encvi => true
  | .encvl => true
  | .decvi => true
  | .decvl => true
  | .posenc => true
  | .posdec => true
  | .reserved5 => true
  | .reserved7 => true

/-- A command word is a 3-bit value (R72, R75): a number of more bits is none. -/
def commandWordFits (w : Nat) : Bool := decide (w < 8)

/-- `AW >= 4` (R8). -/
def Config.wellFormed (c : Config) : Bool := decide (4 ≤ c.aw)

end Sys2Proof
end

