-- ==== Sys2Proof/Decode.lean ====
section
/-! DEFINITION. Decoding and encoding of the command word (30_encoding.md R72 to R75). The word is the 3-bit value
written to `CMD`; its bits are `UNIT` (2), `DIR` (1) and `WIDE` (0). All eight values decode (R74): the two reserved
ones to constructors of their own, which raise IllegalCommand when they run. -/

namespace Sys2Proof

/-- The map of R72 from the fields `UNIT`, `DIR`, `WIDE` to the command. -/
def commandOfFields : (unit dir wide : Bool) → Instr
  | false, false, false => .encvi
  | false, false, true => .encvl
  | false, true, false => .decvi
  | false, true, true => .decvl
  | true, false, false => .posenc
  | true, false, true => .reserved5
  | true, true, false => .posdec
  | true, true, true => .reserved7

/-- Decode the value of `CMD`: `UNIT` is bit 2, `DIR` bit 1, `WIDE` bit 0 (R72). Total: the 3-bit space is exhausted
(R74). -/
def decodeCommand (c : BitVec 3) : Instr :=
  commandOfFields (c.getLsbD 2) (c.getLsbD 1) (c.getLsbD 0)

/-- Why a number is no command word. -/
inductive DecodeError where
  /-- The number has a bit above bit 2: `CMD` is 3 bits wide (R18, R75). -/
  | widerThanCmd
  deriving DecidableEq, Repr

/-- Decode a number given as a command word; a number that does not fit `CMD` is rejected by name. -/
def decodeWord (w : Nat) : Except DecodeError Instr :=
  if commandWordFits w then .ok (decodeCommand (BitVec.ofNat 3 w)) else .error .widerThanCmd

/-- What the decoder reads from the bits of an opcode-table row. A command word is one 3-bit value and no sequence of
bytes in memory (assumption 6), so the number itself is given to the decoder, whatever whole number of bytes the
table's three bits are counted as. -/
def decodeTableWord (_nbits w : Nat) : Option Instr := (decodeWord w).toOption

/-- `UNIT` of a command (R72): 0 for the VarInt/VarLong codec, 1 for the Position codec. -/
def Instr.unit : Instr → Bool
  | .encvi => false
  | .encvl => false
  | .decvi => false
  | .decvl => false
  | .posenc => true
  | .reserved5 => true
  | .posdec => true
  | .reserved7 => true

/-- `DIR` of a command (R72): 0 encodes, 1 decodes. -/
def Instr.dir : Instr → Bool
  | .encvi => false
  | .encvl => false
  | .decvi => true
  | .decvl => true
  | .posenc => false
  | .reserved5 => false
  | .posdec => true
  | .reserved7 => true

/-- `WIDE` of a command (R72): 64-bit for the VarInt/VarLong codec; set with `UNIT` it makes a reserved code. -/
def Instr.wide : Instr → Bool
  | .encvi => false
  | .encvl => true
  | .decvi => false
  | .decvl => true
  | .posenc => false
  | .reserved5 => true
  | .posdec => false
  | .reserved7 => true

/-- The command word of a command, `{UNIT, DIR, WIDE}` (R72). -/
def encode (i : Instr) : BitVec 3 :=
  BitVec.ofBool i.unit ++ (BitVec.ofBool i.dir ++ BitVec.ofBool i.wide)

end Sys2Proof
end

