-- ==== Sys2Proof/Machine/State.lean ====
section
/-! DEFINITION. The state of the block (10_state.md R15 to R35), the host's actions on it (60_exceptions.md R158,
30_encoding.md R79 to R81), the block's three faults (R134), the working registers of one command (R29), and the
ways a step of the MODEL can stop. -/

namespace Sys2Proof.Machine

/-- The contents of the byte buffer and of the host memory it stands in: pairs of an index and a byte, in the
canonical form of `Memory.wf` (R33, R39). Which of the indices are bytes of `BUF` for the block is said by `LEN`. -/
abbrev Memory := List Host.Cell

/-- The registers a host may write, `CMD` apart (R19). `CNT`, `EVAL`, `ELEN` and `STATUS` are read-only to the host
and have no constructor (93 U16: no such action). -/
inductive WritableReg where
  | vi | vl | off | len | px | py | pz | pw
  deriving DecidableEq, Repr

/-- The registers a host may read (R19); a host read of `CMD` is not provided. -/
inductive ReadableReg where
  | vi | vl | off | len | cnt | eval | elen | px | py | pz | pw | status
  deriving DecidableEq, Repr

/-- What the host can do between commands (R158), with the pseudo-operations of R79 to R81. The actions reach the
block in the order of the list `State.pending` (assumption 4). -/
inductive HostAction where
  /-- Write `c` to `CMD`: issue a command (R30, R77). -/
  | command (c : BitVec 3)
  /-- `WR reg, value` (R79). -/
  | wr (r : WritableReg) (value : Int)
  /-- `RD reg` (R79). -/
  | rd (r : ReadableReg)
  /-- The host writes one byte of the buffer's memory (R33, R158). -/
  | bufWrite (a : Nat) (b : Byte)
  /-- `BUFGET a, n` (R80). -/
  | bufget (a n : Nat)
  /-- `BUFSET len, b0 b1 ...` (R80). -/
  | bufset (len : Nat) (bytes : List Byte)
  /-- `ADV` (R81). -/
  | adv
  /-- `CHK code` (R81). -/
  | chk (code : BitVec 2)
  /-- `RESET` (R81, R161). -/
  | reset
  deriving DecidableEq, Repr

/-- The state of one block: its thirteen registers (R16, R17, R18), the byte buffer (R33), and three fields that are the
model's own: the configuration the block was built with (assumption 1), the host's actions still to come
(assumption 4) and a count of the free values taken (assumption 8). `OFF`, `LEN` and `ELEN` are numbers, kept below `2^AW` by every step (assumption 2). -/
structure State where
  /-- The model's own: the implementation's parameter `AW` (R8); no step changes it. -/
  cfg : Config
  /-- `VI` (R22). -/
  vi : BitVec 32
  /-- `VL` (R23). -/
  vl : BitVec 64
  /-- `OFF`, `AW` bits, its unsigned reading (R24). -/
  off : Nat
  /-- `LEN`, `AW` bits, its unsigned reading (R24). -/
  len : Nat
  /-- `CNT` (R25). -/
  cnt : BitVec 4
  /-- `EVAL` (R26). -/
  eval : BitVec 64
  /-- `ELEN`, `AW` bits, its unsigned reading (R27). -/
  elen : Nat
  /-- `PX` (R31). -/
  px : BitVec 32
  /-- `PY` (R31). -/
  py : BitVec 32
  /-- `PZ` (R31). -/
  pz : BitVec 32
  /-- `PW` (R31). -/
  pw : BitVec 64
  /-- `CMD` (R30). -/
  cmd : BitVec 3
  /-- `STATUS`: bits 1:0 `CODE`, bit 2 `FSEEN` (R28). -/
  status : BitVec 3
  /-- The bytes of `BUF` and of the host memory around it (R33, R39, R163). -/
  buf : Memory
  /-- The model's own: the host's actions still to come, first one first (assumption 4). -/
  pending : List HostAction
  /-- The model's own: how many free values have been taken so far (assumption 8). -/
  freeCount : Nat
  deriving DecidableEq, Repr

/-- The faults of the BLOCK (R134), with the payload of R104. They end a command and are recorded in `STATUS`; none
of them stops the machine (R141, R150). -/
inductive CodecFault where
  /-- Raised by DECVI and DECVL (R135): the accumulator, zero-extended, and the length of the buffer. -/
  | sizeExceeded (acc : BitVec 64) (len : Nat)
  /-- Raised by a buffer access at an index not below `u(LEN)` (R136). -/
  | bufferUnderrun
  /-- Raised by the two reserved command codes (R137). -/
  | illegalCommand
  deriving DecidableEq, Repr

/-- The working registers of unit VE during one command (R29; assumption 13). -/
structure VeRegs (w : Nat) where
  /-- The not yet emitted part of the value. -/
  u : BitVec w
  /-- Bytes written so far. -/
  i : BitVec 4
  /-- The byte written last. -/
  b : Byte
  deriving DecidableEq, Repr

/-- The working registers of unit VD during one command (R29; assumption 13). -/
structure VdRegs (w : Nat) where
  /-- The accumulator. -/
  acc : BitVec w
  /-- The bit position of the next payload. -/
  pos : BitVec 7
  /-- Bytes read so far. -/
  i : BitVec 4
  /-- The byte read last. -/
  b : Byte
  deriving DecidableEq, Repr

/-- What one pass of a unit's loop comes to: another pass with the given working registers, or the command's end. -/
inductive Pass (ρ : Type) where
  | more (r : ρ) (s : State)
  | finished (s : State)
  deriving DecidableEq, Repr

/-- Why a step of the model stops with a fault. It is raised by a host action on a byte that does not exist; no command
of the block raises it. -/
inductive Fault where
  /-- Raised by a host byte write or `BUFGET` that reaches an index of `2^AW` or more, which is no index of the one
  address space (R40, R44). Safe: the model stops where the spec gives no effect (assumption 9). -/
  | indexOutsideSpace
  deriving DecidableEq, Repr

/-- Why a step of the model has no meaning to give. -/
inductive Refusal where
  /-- The command is not modelled yet. Raised by no arm of `exec`: every command has its meaning. Safe. -/
  | notModelled (mnemonic : String)
  deriving DecidableEq, Repr

/-- The block right after reset (R35, R161): every register 0; no operation started. `BUF` is unspecified after reset
(R163): nothing is listed, so each byte reads as `unlistedByte` (assumption 3). No free value has been taken; that count
is a DESIGN CHOICE of the model (assumption 8). -/
def State.reset : State where
  cfg := Config.suggested
  vi := 0
  vl := 0
  off := 0
  len := 0
  cnt := 0
  eval := 0
  elen := 0
  px := 0
  py := 0
  pz := 0
  pw := 0
  cmd := 0
  status := 0
  buf := []
  pending := []
  freeCount := 0

end Sys2Proof.Machine
end

