-- ==== Sys2Proof/Machine/Flags.lean ====
section
/-! DEFINITION. `STATUS`, the block's only flag state (10_state.md R28, 60_exceptions.md R139, R149). -/

namespace Sys2Proof.Machine

/-- `STATUS.CODE`, bits 1 to 0 (R28). -/
def State.code (s : State) : BitVec 2 := s.status.extractLsb' 0 2

/-- `STATUS.FSEEN`, bit 2 (R28). -/
def State.fseen (s : State) : Bool := s.status.getLsbD 2

/-- `STATUS.CODE <- c`, `FSEEN` kept. -/
def State.setCode (c : BitVec 2) (s : State) : State :=
  { s with status := s.status.extractLsb' 2 1 ++ c }

/-- `STATUS.FSEEN <- 1`, `CODE` kept. -/
def State.setFseen (s : State) : State := { s with status := s.status ||| 0b100#3 }

/-- `CODE` 0, `OK` (R139). -/
def okCode : BitVec 2 := 0

/-- The result code of a fault (R139). -/
def CodecFault.code : CodecFault → BitVec 2
  | .sizeExceeded _ _ => 1
  | .bufferUnderrun => 2
  | .illegalCommand => 3

/-- The end of a successful command: `STATUS.CODE <- 0`, `FSEEN` left as it is (R28, R38). -/
def State.succeed (s : State) : State := s.setCode okCode

end Sys2Proof.Machine
end

