-- ==== Sys2Proof/Machine/Operands.lean ====
section
/-! DEFINITION. The operand forms: the fixed constants of 00_scope.md R7, the index of a buffer access (20_memory.md
R44), the two parts of an encoded byte (30_encoding.md R58), and the fields of the Position word (R68 to R70). -/

namespace Sys2Proof.Machine

/-- `MAXB(W)`, the greatest length of an encoded string: `ceil(W / 7)`, 5 for 32 bits and 10 for 64 (R7). -/
def maxb (w : Nat) : Nat := (w + 6) / 7

/-- `bv_N(k)`: the N-bit vector whose unsigned reading is `k mod 2^N` (R10). -/
def bvN (n : Nat) (k : Int) : BitVec n := BitVec.ofInt n k

/-- `bv_AW(k)` as an unsigned reading: `k mod 2^AW` (R10), the value an `AW`-bit register takes. -/
def bvAW (c : Config) (k : Int) : Nat := (k % (c.space : Int)).toNat

/-- The index of the k-th access of a command: the integer `u(OFF) + k`, without wrap-around (R44). -/
def State.accessIndex (s : State) (k : Nat) : Nat := s.off + k

/-- The byte `{c, u[6:0]}`: continuation bit `c` over the low seven bits of `u` (R58, R84). -/
def groupByte {w : Nat} (c : Bool) (u : BitVec w) : Byte := BitVec.ofBool c ++ u.extractLsb' 0 7

/-- `C`, the continuation bit of an encoded byte, bit 7 (R58). -/
def contBit (b : Byte) : Bool := b.getLsbD 7

/-- `P`, the segment bits of an encoded byte, bits 6 to 0 (R58). -/
def segmentBits (b : Byte) : BitVec 7 := b.extractLsb' 0 7

/-- `acc | (zext_W(b[6:0]) << pos)`, bits that leave the top discarded (R99). -/
def accumulate {w : Nat} (acc : BitVec w) (b : Byte) (pos : Nat) : BitVec w :=
  acc ||| ((segmentBits b).setWidth w <<< pos)

/-- The packed word of three coordinates (R116): mask each to its field, shift into place, OR together. -/
def posPack (x y z : BitVec 32) : BitVec 64 :=
  let xf := x &&& 0x03FFFFFF#32
  let zf := z &&& 0x03FFFFFF#32
  let yf := y &&& 0x00000FFF#32
  (xf.setWidth 64 <<< 38) ||| (zf.setWidth 64 <<< 12) ||| yf.setWidth 64

/-- The raw x field, `PW[63:38]` (R125). -/
def rawX (w : BitVec 64) : BitVec 64 := (w >>> 38) &&& 0x3FFFFFF#64

/-- The raw z field, `PW[37:12]` (R125). -/
def rawZ (w : BitVec 64) : BitVec 64 := (w >>> 12) &&& 0x3FFFFFF#64

/-- The raw y field, `PW[11:0]` (R125). -/
def rawY (w : BitVec 64) : BitVec 64 := w &&& 0xFFF#64

/-- Sign-extension of an N-bit field of unsigned value `r` (R126): at or above the midpoint `2^(N-1)`, subtract the
full range `2^N`. -/
def signedField (n r : Nat) : Int := if 2 ^ (n - 1) ≤ r then (r : Int) - 2 ^ n else r

/-- The x coordinate of a Position word, 32 bits (R124). -/
def posX (w : BitVec 64) : BitVec 32 := bvN 32 (signedField 26 (rawX w).toNat)

/-- The y coordinate of a Position word, 32 bits (R124). -/
def posY (w : BitVec 64) : BitVec 32 := bvN 32 (signedField 12 (rawY w).toNat)

/-- The z coordinate of a Position word, 32 bits (R124). -/
def posZ (w : BitVec 64) : BitVec 32 := bvN 32 (signedField 26 (rawZ w).toNat)

end Sys2Proof.Machine
end

