-- ==== Sys2Proof/Machine/Ops.lean ====
section
/-! DEFINITION. The named operations: the byte buffer (20_memory.md R39, R45, R46), and raising a fault, which is the
block's whole exception entry (60_exceptions.md R141). There is no return from a fault: nothing was saved and nothing
is restored, and the next command runs as after a success (R146). -/

namespace Sys2Proof.Machine

/-- What an index that nothing has been written to reads as. DESIGN CHOICE (assumption 3): the spec leaves the bytes
of `BUF` after reset unspecified (R163). -/
def unlistedByte : Byte := 0

/-- The byte at an index. -/
def Memory.read : Memory → Nat → Byte
  | [], _ => unlistedByte
  | (k, v) :: m, a => if k = a then v else Memory.read m a

/-- Memory with byte `b` at index `a`, in canonical form if it was. -/
def Memory.write : Memory → Nat → Byte → Memory
  | [], a, b => if b = unlistedByte then [] else [(a, b)]
  | (k, v) :: m, a, b =>
    if a < k then (if b = unlistedByte then (k, v) :: m else (a, b) :: (k, v) :: m)
    else if a = k then (if b = unlistedByte then m else (a, b) :: m)
    else (k, v) :: Memory.write m a b

/-- Indices strictly rising from `lo` on, and no entry equal to what an unlisted index reads as. -/
def Memory.wfFrom (lo : Nat) : Memory → Bool
  | [] => true
  | (k, v) :: m => decide (lo ≤ k) && (v != unlistedByte) && Memory.wfFrom (k + 1) m

/-- The canonical form of memory: equal contents are equal data. -/
def Memory.wf (m : Memory) : Bool := Memory.wfFrom 0 m

/-- Every listed index is below `n`. -/
def Memory.below (n : Nat) (m : Memory) : Bool := m.all (fun c => decide (c.1 < n))

/-- Memory with the bytes written one after another from index `a` on. -/
def Memory.writeList : Memory → Nat → List Byte → Memory
  | m, _, [] => m
  | m, a, b :: bs => Memory.writeList (Memory.write m a b) (a + 1) bs

/-- `MemRead(a, 1)` (R45): the byte `BUF[a]` when `a < u(LEN)` (assumption 17); none when the access raises
BufferUnderrun. -/
def State.memRead (s : State) (a : Nat) : Option Byte :=
  if a < s.len then some (Memory.read s.buf a) else none

/-- `MemWrite(a, 1, b)` (R46): `BUF[a] <- b` when `a < u(LEN)`; none when the access raises BufferUnderrun. -/
def State.memWrite (s : State) (a : Nat) (b : Byte) : Option State :=
  if a < s.len then some { s with buf := Memory.write s.buf a b } else none

/-- The payload a fault leaves in `EVAL` and `ELEN`: SizeExceeded only (R104, R141). -/
def recordPayload (f : CodecFault) (s : State) : State :=
  match f with
  | .sizeExceeded acc len => { s with eval := acc, elen := len }
  | .bufferUnderrun => s
  | .illegalCommand => s

/-- `raise F(info)` (R141), the end of a faulting command: `STATUS.CODE <- code(F)`, `STATUS.FSEEN <- 1`, and for
SizeExceeded the payload. Control goes nowhere: no vector, no saved register, no mode. -/
def raise (f : CodecFault) (s : State) : State :=
  (recordPayload f (s.setCode f.code)).setFseen

/-- The host's write of `CMD`, which issues the command (R30; assumption 16); `CMD` keeps the value. -/
def State.writeCmd (c : BitVec 3) (s : State) : State := { s with cmd := c }

end Sys2Proof.Machine
end

