-- ==== Sys2Proof/Machine/Position.lean ====
section
/-! DEFINITION. Units PE and PD: POSENC and POSDEC (42_position_encode.md R115 to R122, 43_position_decode.md R123 to
R133). Neither loops, reaches the buffer or faults (R119, R128). -/

namespace Sys2Proof.Machine

/-- POSENC (R116): `PW` receives the packed word; a coordinate outside its field's range is truncated without a fault
(R120). -/
def execPosenc (s : State) : Host.Outcome State Fault Refusal :=
  .next ({ s with pw := posPack s.px s.py s.pz }).succeed

/-- POSDEC (R124): each field sign-extended from its own width, with the corrected midpoints (R131). -/
def execPosdec (s : State) : Host.Outcome State Fault Refusal :=
  .next ({ s with px := posX s.pw, py := posY s.pw, pz := posZ s.pw }).succeed

end Sys2Proof.Machine
end

