-- ==== Sys2Proof/Machine/Reserved.lean ====
section
/-! DEFINITION. The two reserved command codes (30_encoding.md R73, 60_exceptions.md R137): each raises IllegalCommand
and changes nothing else. -/

namespace Sys2Proof.Machine

/-- Command code 5, `101` (R73). -/
def execReserved5 (s : State) : Host.Outcome State Fault Refusal := .next (raise .illegalCommand s)

/-- Command code 7, `111` (R73). -/
def execReserved7 (s : State) : Host.Outcome State Fault Refusal := .next (raise .illegalCommand s)

end Sys2Proof.Machine
end

