-- ==== Sys2Proof/Machine/VarintDecode.lean ====
section
/-! DEFINITION. Unit VD: DECVI and DECVL (41_varint_decode.md R97 to R114). One pass of the pseudocode's loop reads one
byte; a command is its passes one after another, in one step (00_scope.md R5, R178). -/

namespace Sys2Proof.Machine

/-- The working registers as a command starts (R29). -/
def vdStart (w : Nat) : VdRegs w := { acc := 0, pos := 0, i := 0, b := 0 }

/-- One pass, in the order of R101: read a byte, count it, accumulate its payload; a clear continuation bit ends the
command with the result; otherwise `pos + 7`, and at W or beyond SizeExceeded. `put` writes the result register. -/
def vdPass {w : Nat} (put : BitVec w → State → State) (r : VdRegs w) (s : State) : Pass (VdRegs w) :=
  match s.memRead (s.accessIndex r.i.toNat) with
  | none => .finished (raise .bufferUnderrun s)
  | some b =>
    let i := r.i + 1
    let acc := accumulate r.acc b r.pos.toNat
    if contBit b then
      let pos := r.pos + 7
      if w ≤ pos.toNat then .finished (raise (.sizeExceeded (acc.setWidth 64) s.len) s)
      else .more { acc := acc, pos := pos, i := i, b := b } s
    else .finished ({ put acc s with cnt := i }).succeed

/-- At most `n` passes. A command ends within `MAXB(W)` passes (R101), so the first line is not reached from
`decodeWith`. -/
def vdRun {w : Nat} (put : BitVec w → State → State) : Nat → VdRegs w → State → State
  | 0, _, s => s
  | n + 1, r, s =>
    match vdPass put r s with
    | .more r' t => vdRun put n r' t
    | .finished t => t

/-- Decode a W-bit value from `BUF[u(OFF)...]` into the register `put` writes. -/
def decodeWith {w : Nat} (put : BitVec w → State → State) (s : State) : State :=
  vdRun put (maxb w) (vdStart w) s

/-- `VI <- acc`: the same 32 bits, read as signed (R103). -/
def State.putVi (v : BitVec 32) (s : State) : State := { s with vi := v }

/-- `VL <- acc`: the same 64 bits, read as signed (R103). -/
def State.putVl (v : BitVec 64) (s : State) : State := { s with vl := v }

/-- DECVI (R98). -/
def execDecvi (s : State) : Host.Outcome State Fault Refusal := .next (decodeWith State.putVi s)

/-- DECVL (R102). -/
def execDecvl (s : State) : Host.Outcome State Fault Refusal := .next (decodeWith State.putVl s)

end Sys2Proof.Machine
end

