-- ==== Sys2Proof/Machine/VarintEncode.lean ====
section
/-! DEFINITION. Unit VE: ENCVI and ENCVL (40_varint_encode.md R83 to R96). One pass of the pseudocode's loop writes one
byte; a command is its passes one after another, in one step (00_scope.md R5, R178). -/

namespace Sys2Proof.Machine

/-- The working registers as a command starts (R29): the operand in `u`, reinterpreted, not converted (R85). -/
def veStart {w : Nat} (v : BitVec w) : VeRegs w := { u := v, i := 0, b := 0 }

/-- One pass (R84, R88). While `u(u) >= 128` (R86): a byte with its continuation bit set, then `u >> 7`, zeros
entering. Otherwise the final byte (R87), `CNT` and the end. A write that does not fit ends the command with
BufferUnderrun, the bytes before it kept (R92). -/
def vePass {w : Nat} (r : VeRegs w) (s : State) : Pass (VeRegs w) :=
  if 128 ≤ r.u.toNat then
    match s.memWrite (s.accessIndex r.i.toNat) (groupByte true r.u) with
    | none => .finished (raise .bufferUnderrun s)
    | some t => .more { u := r.u >>> 7, i := r.i + 1, b := groupByte true r.u } t
  else
    match s.memWrite (s.accessIndex r.i.toNat) (groupByte false r.u) with
    | none => .finished (raise .bufferUnderrun s)
    | some t => .finished ({ t with cnt := r.i + 1 }).succeed

/-- At most `n` passes. A command never uses up its `MAXB(W)` passes (R86), so the first line is not reached from
`encodeWith`. -/
def veRun {w : Nat} : Nat → VeRegs w → State → State
  | 0, _, s => s
  | n + 1, r, s =>
    match vePass r s with
    | .more r' t => veRun n r' t
    | .finished t => t

/-- Encode the W-bit value `v` at `BUF[u(OFF)...]`. -/
def encodeWith {w : Nat} (v : BitVec w) (s : State) : State := veRun (maxb w) (veStart v) s

/-- ENCVI (R84). -/
def execEncvi (s : State) : Host.Outcome State Fault Refusal := .next (encodeWith s.vi s)

/-- ENCVL (R88). -/
def execEncvl (s : State) : Host.Outcome State Fault Refusal := .next (encodeWith s.vl s)

end Sys2Proof.Machine
end

