-- ==== Sys2Proof/Machine/Dispatch.lean ====
section
/-! DEFINITION. One arm per command: its meaning. -/

namespace Sys2Proof.Machine

def exec (i : Instr) (s : State) : Host.Outcome State Fault Refusal :=
  match i with
  | .encvi => Sys2Proof.Machine.execEncvi s
  | .encvl => Sys2Proof.Machine.execEncvl s
  | .decvi => Sys2Proof.Machine.execDecvi s
  | .decvl => Sys2Proof.Machine.execDecvl s
  | .posenc => Sys2Proof.Machine.execPosenc s
  | .posdec => Sys2Proof.Machine.execPosdec s
  | .reserved5 => Sys2Proof.Machine.execReserved5 s
  | .reserved7 => Sys2Proof.Machine.execReserved7 s

end Sys2Proof.Machine
end

