-- ==== Sys2Proof/Machine/HostActions.lean ====
section
/-! DEFINITION. What the host does between commands: register writes and reads (30_encoding.md R79), the buffer (R80),
the pseudo-instructions (R81) and the reset action (70_reset_and_hazards.md R161). -/

namespace Sys2Proof.Machine

/-- `WR reg, value` (R79): the register takes `bv_N(value)` at its own width (assumption 7). -/
def writeReg (r : WritableReg) (value : Int) (s : State) : State :=
  match r with
  | .vi => { s with vi := bvN 32 value }
  | .vl => { s with vl := bvN 64 value }
  | .off => { s with off := bvAW s.cfg value }
  | .len => { s with len := bvAW s.cfg value }
  | .px => { s with px := bvN 32 value }
  | .py => { s with py := bvN 32 value }
  | .pz => { s with pz := bvN 32 value }
  | .pw => { s with pw := bvN 64 value }

/-- The step of `WR reg, value`. -/
def hostWr (r : WritableReg) (value : Int) (s : State) : Host.Outcome State Fault Refusal :=
  .next (writeReg r value s)

/-- What the host reads from a register: its unsigned reading (R10, R19). -/
def readReg (r : ReadableReg) (s : State) : Nat :=
  match r with
  | .vi => s.vi.toNat
  | .vl => s.vl.toNat
  | .off => s.off
  | .len => s.len
  | .cnt => s.cnt.toNat
  | .eval => s.eval.toNat
  | .elen => s.elen
  | .px => s.px.toNat
  | .py => s.py.toNat
  | .pz => s.pz.toNat
  | .pw => s.pw.toNat
  | .status => s.status.toNat

/-- The step of `RD reg`: it changes nothing (R79); what the host gets is `readReg`. -/
def hostRd (_r : ReadableReg) (s : State) : Host.Outcome State Fault Refusal := .next s

/-- The step of a host byte write (R33, R158). The index need not be below `u(LEN)`: the host may place its bytes
before it writes `LEN` (R165; assumption 9). -/
def hostBufWrite (a : Nat) (b : Byte) (s : State) : Host.Outcome State Fault Refusal :=
  if a < s.cfg.space then .next { s with buf := Memory.write s.buf a b } else .fault .indexOutsideSpace

/-- The bytes `BUFGET a, n` gives the host (R80). -/
def bufBytes (a n : Nat) (s : State) : List Byte := (List.range n).map (fun k => Memory.read s.buf (a + k))

/-- The step of `BUFGET a, n`: it changes nothing (R80); what the host gets is `bufBytes`. -/
def hostBufget (a n : Nat) (s : State) : Host.Outcome State Fault Refusal :=
  if a + n ≤ s.cfg.space then .next s else .fault .indexOutsideSpace

/-- The pad byte of `BUFSET`, a convention of the spec's test programs (R80). -/
def padByte : Byte := 0xEE

/-- The `n` bytes of `BUFSET n, b0 b1 ...`: the listed ones, padded (R80; assumption 10). -/
def padded (n : Nat) (bytes : List Byte) : List Byte :=
  (bytes ++ List.replicate (n - bytes.length) padByte).take n

/-- `BUFSET len, b0 b1 ...` (R80): `BUF` becomes those bytes and `LEN` their number. -/
def setBuf (len : Nat) (bytes : List Byte) (s : State) : State :=
  let n := bvAW s.cfg len
  { s with buf := Memory.writeList s.buf 0 (padded n bytes), len := n }

/-- The step of `BUFSET len, b0 b1 ...`. -/
def hostBufset (len : Nat) (bytes : List Byte) (s : State) : Host.Outcome State Fault Refusal :=
  .next (setBuf len bytes s)

/-- The value of `OFF` that the spec does not state: `AW` bits, otherwise free (DESIGN CHOICE, assumption 8). -/
def State.freeOff (s : State) : Nat := bvAW s.cfg (Config.freeCursor s.freeCount)

/-- `OFF` takes a free value, and the next one will be another. -/
def State.takeFreeOff (s : State) : State := { s with off := s.freeOff, freeCount := s.freeCount + 1 }

/-- The step of `ADV`, which expands to `WR OFF, u(OFF) + u(CNT)` (R81). The host must not let the sum reach `2^AW`
(R81, R172); where it does, the spec states no result, and `OFF` takes a free value (assumption 8). -/
def hostAdv (s : State) : Host.Outcome State Fault Refusal :=
  if s.off + s.cnt.toNat < s.cfg.space then hostWr .off ((s.off + s.cnt.toNat : Nat) : Int) s
  else .next s.takeFreeOff

/-- Whether `CHK code` holds: `STATUS.CODE` equals `code` (R81). -/
def checkHolds (code : BitVec 2) (s : State) : Bool := s.code == code

/-- The step of `CHK code`, a test assertion about the state: it changes nothing (R81); whether it holds is
`checkHolds` (assumption 11). -/
def hostChk (_code : BitVec 2) (s : State) : Host.Outcome State Fault Refusal := .next s

/-- `RESET` (R161): every register as R35 says; `BUF` neither cleared nor read (R163; assumption 15). The configuration, the
host's actions to come and the count of free values are no state of the block. -/
def resetBlock (s : State) : State :=
  { State.reset with cfg := s.cfg, buf := s.buf, pending := s.pending, freeCount := s.freeCount }

/-- The step of `RESET`. -/
def hostReset (s : State) : Host.Outcome State Fault Refusal := .next (resetBlock s)

/-- The step of a block to which the host does nothing: an idle block holds its registers (R156). -/
def idle (s : State) : Host.Outcome State Fault Refusal := .next s

/-- The state with the host's next action taken from the list. -/
def State.withPending (rest : List HostAction) (s : State) : State := { s with pending := rest }

end Sys2Proof.Machine
end

