-- ==== Sys2Proof/Machine/Step.lean ====
section
/-! DEFINITION. One step: the host's next action. The block fetches nothing (10_state.md R20): a command is the host's
write of `CMD`, performed to its end in one step (00_scope.md R5, 70_reset_and_hazards.md R171; assumption 5). -/

namespace Sys2Proof.Machine

/-- One step (R5, R158): the first of the host's actions to come. A write of `CMD` stores the code and runs the command
it names (R30); with no action to come the block is idle (R156). -/
def step (s : State) : Host.Outcome State Fault Refusal :=
  match s.pending with
  | [] => idle s
  | .command c :: rest => exec (decodeCommand c) (State.writeCmd c (State.withPending rest s))
  | .wr r value :: rest => hostWr r value (State.withPending rest s)
  | .rd r :: rest => hostRd r (State.withPending rest s)
  | .bufWrite a b :: rest => hostBufWrite a b (State.withPending rest s)
  | .bufget a n :: rest => hostBufget a n (State.withPending rest s)
  | .bufset len bytes :: rest => hostBufset len bytes (State.withPending rest s)
  | .adv :: rest => hostAdv (State.withPending rest s)
  | .chk code :: rest => hostChk code (State.withPending rest s)
  | .reset :: rest => hostReset (State.withPending rest s)

/-- The state in which the host's very next action is to write the command word `w` to `CMD` (assumption 4); a number
that is no command word is not issued (assumption 6). -/
def State.withFetchWord (s : State) (_nbits w : Nat) : State :=
  if commandWordFits w then { s with pending := .command (BitVec.ofNat 3 w) :: s.pending } else s

end Sys2Proof.Machine
end

