-- ==== Sys2Proof/Safety.lean ====
section
/-! DEFINITION. What claims about the block are stated in: the invariant of the model, what it is for a run to have gone
wrong (70_reset_and_hazards.md R179), and the closed forms the spec gives the two VarInt/VarLong units
(30_encoding.md R59, R60, 40_varint_encode.md R83, 41_varint_decode.md R106). The closed forms use no loop of the
machine. -/

namespace Sys2Proof.Machine

/-- A run went wrong, in the block's own terms, when `STATUS.FSEEN` is set at its end (R179). -/
def State.wentWrong (s : State) : Bool := s.fseen

/-- The invariant: the parameter is legal (R8), the `AW`-bit registers hold `AW`-bit numbers (R16), and the buffer's
memory is in canonical form and within the one index space (R40). -/
abbrev State.Inv (s : State) : Prop :=
  s.cfg.wellFormed = true ∧ s.off < s.cfg.space ∧ s.len < s.cfg.space ∧ s.elen < s.cfg.space ∧
    Memory.wf s.buf = true ∧ Memory.below s.cfg.space s.buf = true

/-- The index of the highest set bit plus one (R60); 0 for 0. -/
def bitLength (U : Nat) : Nat := if U = 0 then 0 else Nat.log2 U + 1

/-- The length of the canonical string of the unsigned value `U`: `max(1, ceil(bitlength(U) / 7))` (R60). -/
def encLength (U : Nat) : Nat := max 1 ((bitLength U + 6) / 7)

/-- Byte `k` of the canonical string of `U`: `{c_k, (U >> 7k)[6:0]}`, the continuation bit clear in the last byte only
(R83). -/
def encByte (U k : Nat) : Byte :=
  BitVec.ofBool (decide (k + 1 < encLength U)) ++ BitVec.ofNat 7 (U >>> (7 * k))

/-- The canonical string of `U` (R83). -/
def encString (U : Nat) : List Byte := (List.range (encLength U)).map (encByte U)

/-- Byte `k` of the string at `OFF` (R41). -/
def State.stringByte (s : State) (k : Nat) : Byte := Memory.read s.buf (s.accessIndex k)

/-- The value the first `n` bytes at `OFF` denote at width `W` (R59, R109): the OR of the payloads, group `k` shifted
left by `7k`, truncated. -/
def State.stringValue (w : Nat) (s : State) (n : Nat) : BitVec w :=
  BitVec.ofNat w ((List.range n).foldl (fun v k => v ||| ((segmentBits (s.stringByte k)).toNat <<< (7 * k))) 0)

/-- The number of bytes from `OFF` to the end of the buffer (R106). -/
def State.avail (s : State) : Nat := s.len - s.off

/-- The number of leading bytes at `OFF` that have the continuation bit set, counted up to `n` (R106). -/
def State.leading (s : State) (n : Nat) : Nat :=
  ((List.range n).takeWhile (fun k => contBit (s.stringByte k))).length

/-- Index `a` is none of the first `n` indices a command at `OFF` accesses (R44, R48). -/
def State.outside (s : State) (n a : Nat) : Prop := ∀ k, k < n → a ≠ s.accessIndex k

/-- `n` passes of unit VE one after another, stopping at the one that ends the command (R178). -/
def vePasses {w : Nat} : Nat → VeRegs w → State → Pass (VeRegs w)
  | 0, r, s => .more r s
  | n + 1, r, s =>
    match vePass r s with
    | .more r' t => vePasses n r' t
    | .finished t => .finished t

/-- `n` passes of unit VD one after another, stopping at the one that ends the command (R178). -/
def vdPasses {w : Nat} (put : BitVec w → State → State) : Nat → VdRegs w → State → Pass (VdRegs w)
  | 0, r, s => .more r s
  | n + 1, r, s =>
    match vdPass put r s with
    | .more r' t => vdPasses put n r' t
    | .finished t => .finished t

/-- The state with other values in the registers of the Position codec (R17). -/
def State.withPositionRegs (x y z : BitVec 32) (w : BitVec 64) (s : State) : State :=
  { s with px := x, py := y, pz := z, pw := w }

/-- The state `s` with the registers of the VarInt/VarLong codec (R16) and the buffer of `v`. -/
def State.withVarintPart (v s : State) : State :=
  { s with vi := v.vi, vl := v.vl, off := v.off, len := v.len, cnt := v.cnt, eval := v.eval, elen := v.elen, buf := v.buf }

/-- The two states agree on everything the command reads (R76). -/
def SameOperands : Instr → State → State → Prop
  | .encvi, s, s' => s.vi = s'.vi ∧ s.off = s'.off ∧ s.len = s'.len
  | .encvl, s, s' => s.vl = s'.vl ∧ s.off = s'.off ∧ s.len = s'.len
  | .decvi, s, s' => s.off = s'.off ∧ s.len = s'.len ∧ ∀ k, k < 5 → s.stringByte k = s'.stringByte k
  | .decvl, s, s' => s.off = s'.off ∧ s.len = s'.len ∧ ∀ k, k < 10 → s.stringByte k = s'.stringByte k
  | .posenc, s, s' => s.px = s'.px ∧ s.py = s'.py ∧ s.pz = s'.pz
  | .posdec, s, s' => s.pw = s'.pw
  | .reserved5, _, _ => True
  | .reserved7, _, _ => True

/-- The two states after the command hold the same outcome of it: its code, its result registers when it succeeded,
its payload when it ended in SizeExceeded, and the bytes at the indices it may have written (R6, R76). -/
def SameOutcome : Instr → State → State → Prop
  | .encvi, t, t' => t.code = t'.code ∧ (t.code = 0 → t.cnt = t'.cnt) ∧
      ∀ k, k < encLength t.vi.toNat → t.accessIndex k < t.len → t.stringByte k = t'.stringByte k
  | .encvl, t, t' => t.code = t'.code ∧ (t.code = 0 → t.cnt = t'.cnt) ∧
      ∀ k, k < encLength t.vl.toNat → t.accessIndex k < t.len → t.stringByte k = t'.stringByte k
  | .decvi, t, t' => t.code = t'.code ∧ (t.code = 0 → t.vi = t'.vi ∧ t.cnt = t'.cnt) ∧
      (t.code = 1 → t.eval = t'.eval ∧ t.elen = t'.elen)
  | .decvl, t, t' => t.code = t'.code ∧ (t.code = 0 → t.vl = t'.vl ∧ t.cnt = t'.cnt) ∧
      (t.code = 1 → t.eval = t'.eval ∧ t.elen = t'.elen)
  | .posenc, t, t' => t.code = t'.code ∧ t.pw = t'.pw
  | .posdec, t, t' => t.code = t'.code ∧ t.px = t'.px ∧ t.py = t'.py ∧ t.pz = t'.pz
  | .reserved5, t, t' => t.code = t'.code
  | .reserved7, t, t' => t.code = t'.code

/-- `FSEEN` kept, `CODE` 0: what `STATUS` holds after a success (R28). -/
def statusAfterSuccess (status : BitVec 3) : BitVec 3 := status &&& 0b100#3

end Sys2Proof.Machine
end

