-- ==== Sys2Proof/Certificates/Slice0/Obligations.lean ====
section
/-! DEFINITION. The statements about the block, for the provers. Statements are over every state, and so over every
value of `AW`, every content of the buffer and every content of the registers. Where a byte that a command has stored
is read back, the buffer's memory is in canonical form (`Memory.wf`), which `EveryStepKeepsTheInvariant` states of
every step. -/

open Sys2Proof Sys2Proof.Machine

/-! Commands: encoding, issue, completion. -/

/-- R72: the command map, value by value. -/
def Obligations.CommandMapIsTheTable : Prop :=
  decodeCommand 0b000#3 = .encvi ∧ decodeCommand 0b001#3 = .encvl ∧ decodeCommand 0b010#3 = .decvi ∧
    decodeCommand 0b011#3 = .decvl ∧ decodeCommand 0b100#3 = .posenc ∧ decodeCommand 0b101#3 = .reserved5 ∧
    decodeCommand 0b110#3 = .posdec ∧ decodeCommand 0b111#3 = .reserved7

/-- Decoding and encoding of the command word are inverse to each other, for every command and every word; a number of
more than three bits decodes to nothing (the model's reading of R18 and R75, assumption 6). -/
def Obligations.DecodeAndEncodeAgree : Prop :=
  (∀ i : Instr, i.wellFormed = true → decodeCommand (encode i) = i) ∧
    (∀ c : BitVec 3, encode (decodeCommand c) = c) ∧
    (∀ (n : Nat) (c : BitVec 3), decodeTableWord n c.toNat = some (decodeCommand c)) ∧
    ∀ n w : Nat, 8 ≤ w → decodeTableWord n w = none

/-- R30: a host write of a value to `CMD` is one step that stores the value and runs the command the value names, to a
next state in which `CMD` still holds it; reset leaves 0 in `CMD`. -/
def Obligations.WritingCmdRunsTheCommandItNames : Prop :=
  (∀ (s : State) (c : BitVec 3) (rest : List HostAction), s.pending = .command c :: rest →
    step s = exec (decodeCommand c) { s with pending := rest, cmd := c } ∧
      ∃ t, step s = .next t ∧ t.cmd = c ∧ t.pending = rest) ∧
    State.reset.cmd = 0

/-- The way a command word reaches the block (assumption 4): the step of a state with a fetch word set runs the command
that the word decodes to, as the very next action. -/
def Obligations.FetchWordIsTheNextCommand : Prop :=
  ∀ (s : State) (n w : Nat) (i : Instr), decodeTableWord n w = some i →
    step (s.withFetchWord n w) = exec i { s with cmd := BitVec.ofNat 3 w }

/-- A block to which the host does nothing holds its state (R156; the model's step of an idle block, assumption 4). -/
def Obligations.IdleBlockHoldsItsState : Prop :=
  ∀ s : State, s.pending = [] → step s = .next s

/-- R150: no command stops the machine, whatever the state; so after any fault the next command is performed. -/
def Obligations.EveryCommandEndsInANextState : Prop :=
  ∀ (i : Instr) (s : State), ∃ t, exec i s = .next t ∧ t.pending = s.pending ∧ t.cfg = s.cfg ∧ t.cmd = s.cmd ∧
    t.off = s.off ∧ t.len = s.len

/-- The only steps that do not end in a next state are those of host actions on a byte that does not exist, at an index
of `2^AW` or more (the model's choice, assumption 9), and no step is refused. -/
def Obligations.OnlyForbiddenHostActionsStop : Prop :=
  ∀ s : State,
    (∃ t, step s = .next t) ∨
      (step s = .fault .indexOutsideSpace ∧
        ((∃ a b rest, s.pending = .bufWrite a b :: rest ∧ s.cfg.space ≤ a) ∨
          ∃ a n rest, s.pending = .bufget a n :: rest ∧ s.cfg.space < a + n))

/-! Reset and the invariant. -/

/-- R161, R163: the reset action writes 0 to every register and neither clears nor changes a byte of the buffer; it
starts no operation; with `LEN` 0 no byte is reachable. -/
def Obligations.ResetWritesZeroAndKeepsTheBuffer : Prop :=
  ∀ (s : State) (rest : List HostAction), s.pending = .reset :: rest →
    step s = .next { cfg := s.cfg, vi := 0, vl := 0, off := 0, len := 0, cnt := 0, eval := 0, elen := 0, px := 0,
                     py := 0, pz := 0, pw := 0, cmd := 0, status := 0, buf := s.buf, pending := rest,
                     freeCount := s.freeCount } ∧
      ∀ t, step s = .next t → t.code = okCode ∧ t.fseen = false ∧ ∀ a, t.memRead a = none

/-- R35: the reset state's registers, and the VarInt/VarLong commands on it: with `LEN` 0 each raises BufferUnderrun on
its first access and changes nothing else (the configuration and the memory of the reset state are the model's choices,
assumptions 1 and 3; nothing here rests on them). -/
def Obligations.ResetStateHasEveryRegisterZero : Prop :=
  State.reset.vi = 0 ∧ State.reset.vl = 0 ∧ State.reset.off = 0 ∧ State.reset.len = 0 ∧ State.reset.cnt = 0 ∧
    State.reset.eval = 0 ∧ State.reset.elen = 0 ∧ State.reset.px = 0 ∧ State.reset.py = 0 ∧ State.reset.pz = 0 ∧
    State.reset.pw = 0 ∧ State.reset.cmd = 0 ∧ State.reset.status = 0 ∧ State.reset.code = okCode ∧
    State.reset.fseen = false ∧
    ∀ i : Instr, i = .encvi ∨ i = .encvl ∨ i = .decvi ∨ i = .decvl →
      exec i State.reset = .next { State.reset with status := 0b110#3 }

/-- The invariant holds of the reset state. -/
def Obligations.InvariantHoldsAtReset : Prop := State.reset.Inv

/-- Every step keeps the invariant: the parameter stays legal, the registers of `AW` bits stay below `2^AW`, and the
memory stays canonical and within the index space; and no step changes the parameter. -/
def Obligations.EveryStepKeepsTheInvariant : Prop :=
  ∀ s t : State, s.Inv → step s = .next t → t.Inv ∧ t.cfg = s.cfg

/-! The byte buffer. -/

/-- R45, R46: a read below `LEN` gives the byte and changes nothing; a write below `LEN` succeeds and changes that byte
and no other byte and no register; an access at or beyond `LEN` gives nothing and ends the pass that made it with
BufferUnderrun, the buffer as it was. -/
def Obligations.BufferAccessIsBoundedByLen : Prop :=
  (∀ (s : State) (a : Nat), a < s.len → s.memRead a = some (Memory.read s.buf a)) ∧
    (∀ (s : State) (a : Nat), s.len ≤ a → s.memRead a = none ∧ ∀ b, s.memWrite a b = none) ∧
    (∀ (s : State) (a : Nat) (b : Byte), Memory.wf s.buf = true → a < s.len →
      ∃ t, s.memWrite a b = some t ∧ t = { s with buf := t.buf } ∧ Memory.wf t.buf = true ∧
        Memory.read t.buf a = b ∧ ∀ a', a' ≠ a → Memory.read t.buf a' = Memory.read s.buf a') ∧
    (∀ (w : Nat) (put : BitVec w → State → State) (r : VdRegs w) (s : State), s.len ≤ s.off + r.i.toNat →
      vdPass put r s = .finished { s with status := 0b110#3 }) ∧
    ∀ (w : Nat) (r : VeRegs w) (s : State), s.len ≤ s.off + r.i.toNat →
      vePass r s = .finished { s with status := 0b110#3 }

/-- R44: the index of an access is `u(OFF) + k` without wrap-around, and at `2^AW` or beyond no access succeeds, so no
command wraps to index 0. -/
def Obligations.IndicesDoNotWrap : Prop :=
  ∀ (s : State) (k : Nat), s.Inv → s.accessIndex k = s.off + k ∧
    (s.cfg.space ≤ s.off + k → s.memRead (s.accessIndex k) = none ∧ ∀ b, s.memWrite (s.accessIndex k) b = none)

/-! Faults and `STATUS`. -/

/-- R141, R139: raising a fault writes its code and `FSEEN`, for SizeExceeded the payload, and nothing else. -/
def Obligations.RaiseRecordsTheFaultAndNothingElse : Prop :=
  ∀ s : State,
    (∀ (acc : BitVec 64) (n : Nat),
      raise (.sizeExceeded acc n) s = { s with eval := acc, elen := n, status := 0b101#3 }) ∧
    raise .bufferUnderrun s = { s with status := 0b110#3 } ∧
    raise .illegalCommand s = { s with status := 0b111#3 }

/-- R73, R137: the value 5 or 7 written to `CMD` sets `CODE` to 3 and `FSEEN`, and nothing else changes: no register
(but `CMD`, which holds the value written), no byte. -/
def Obligations.ReservedCodesRaiseIllegalCommand : Prop :=
  ∀ s : State, exec .reserved5 s = .next { s with status := 0b111#3 } ∧
    exec .reserved7 s = .next { s with status := 0b111#3 } ∧
    ∀ rest, (s.pending = .command 5 :: rest →
        step s = .next { s with cmd := 5, status := 0b111#3, pending := rest }) ∧
      (s.pending = .command 7 :: rest → step s = .next { s with cmd := 7, status := 0b111#3, pending := rest })

/-- R28: a command whose `CODE` is not 0 sets `FSEEN`, one whose `CODE` is 0 leaves it; and no command reads `STATUS`. -/
def Obligations.StatusIsWrittenByEveryCommandAndReadByNone : Prop :=
  ∀ (i : Instr) (s t : State), exec i s = .next t →
    (t.code ≠ 0 → t.fseen = true) ∧ (t.code = 0 → t.fseen = s.fseen) ∧
      ∀ v : BitVec 3, ∃ t', exec i { s with status := v } = .next t' ∧ t'.code = t.code ∧
        t' = { t with status := t'.status }

/-- R140, which the spec marks as derived from its rules: the codes each command can end with, each of them in some
state. -/
def Obligations.EachCommandEndsWithItsCodes : Prop :=
  (∀ s t : State, exec .encvi s = .next t → t.code = 0 ∨ t.code = 2) ∧
    (∀ s t : State, exec .encvl s = .next t → t.code = 0 ∨ t.code = 2) ∧
    (∀ s t : State, exec .decvi s = .next t → t.code = 0 ∨ t.code = 1 ∨ t.code = 2) ∧
    (∀ s t : State, exec .decvl s = .next t → t.code = 0 ∨ t.code = 1 ∨ t.code = 2) ∧
    (∀ s t : State, exec .posenc s = .next t → t.code = 0) ∧
    (∀ s t : State, exec .posdec s = .next t → t.code = 0) ∧
    (∀ s t : State, exec .reserved5 s = .next t → t.code = 3) ∧
    (∀ s t : State, exec .reserved7 s = .next t → t.code = 3) ∧
    (∀ c : BitVec 2, c = 0 ∨ c = 2 → (∃ s t, exec .encvi s = .next t ∧ t.code = c) ∧
      ∃ s t, exec .encvl s = .next t ∧ t.code = c) ∧
    (∀ c : BitVec 2, c = 0 ∨ c = 1 ∨ c = 2 → (∃ s t, exec .decvi s = .next t ∧ t.code = c) ∧
      ∃ s t, exec .decvl s = .next t ∧ t.code = c) ∧
    (∃ s t, exec .posenc s = .next t ∧ t.code = 0) ∧ (∃ s t, exec .posdec s = .next t ∧ t.code = 0) ∧
    (∃ s t, exec .reserved5 s = .next t ∧ t.code = 3) ∧ ∃ s t, exec .reserved7 s = .next t ∧ t.code = 3

/-- R149: `FSEEN`, once set, is cleared by no step but that of the reset action; and a command that ends with a nonzero
`CODE` sets it. -/
def Obligations.OnlyResetClearsFseen : Prop :=
  (∀ s t : State, step s = .next t → s.fseen = true → (∀ rest, s.pending ≠ .reset :: rest) → t.fseen = true) ∧
    (∀ s t : State, step s = .next t → (∃ rest, s.pending = .reset :: rest) → t.fseen = false) ∧
    ∀ s t : State, step s = .next t → (∃ c rest, s.pending = .command c :: rest) →
      (t.code ≠ 0 → t.fseen = true) ∧ (t.code = 0 → t.fseen = s.fseen)

/-- R37: a faulting command writes nothing but `STATUS`, `EVAL` and `ELEN` (SizeExceeded only), and bytes an encode had
already written, which stand from `OFF` to the end of the buffer. -/
def Obligations.FaultingCommandKeepsTheRegisters : Prop :=
  ∀ (i : Instr) (s t : State), exec i s = .next t → t.code ≠ 0 →
    t = { s with status := t.status, eval := t.eval, elen := t.elen, buf := t.buf } ∧
      (t.code ≠ 1 → t.eval = s.eval ∧ t.elen = s.elen) ∧
      (t.buf ≠ s.buf → (i = .encvi ∨ i = .encvl) ∧ t.code = 2) ∧
      ∀ a, s.outside (s.len - s.off) a → Memory.read t.buf a = Memory.read s.buf a

/-- R38: a successful command writes its result registers (and an encode the bytes of its string, at `OFF`) and `CODE`,
and nothing else. -/
def Obligations.SuccessfulCommandWritesItsResultsOnly : Prop :=
  ∀ s t : State,
    (exec .encvi s = .next t → t.code = 0 →
      t = { s with buf := t.buf, cnt := t.cnt, status := s.status &&& 0b100#3 } ∧
        ∀ a, s.outside (encLength s.vi.toNat) a → Memory.read t.buf a = Memory.read s.buf a) ∧
    (exec .encvl s = .next t → t.code = 0 →
      t = { s with buf := t.buf, cnt := t.cnt, status := s.status &&& 0b100#3 } ∧
        ∀ a, s.outside (encLength s.vl.toNat) a → Memory.read t.buf a = Memory.read s.buf a) ∧
    (exec .decvi s = .next t → t.code = 0 →
      t = { s with vi := t.vi, cnt := t.cnt, status := s.status &&& 0b100#3 }) ∧
    (exec .decvl s = .next t → t.code = 0 →
      t = { s with vl := t.vl, cnt := t.cnt, status := s.status &&& 0b100#3 }) ∧
    (exec .posenc s = .next t → t = { s with pw := t.pw, status := s.status &&& 0b100#3 }) ∧
    (exec .posdec s = .next t →
      t = { s with px := t.px, py := t.py, pz := t.pz, status := s.status &&& 0b100#3 })

/-! Unit VE. -/

/-- R89 with the closed form of R83: an encode whose string fits stores byte `k` of the canonical string of its operand
at `u(OFF) + k`, changes no other byte, writes the string's length to `CNT` and 0 to `CODE`, and nothing else. -/
def Obligations.EncodeStoresTheCanonicalString : Prop :=
  ∀ s : State, Memory.wf s.buf = true →
    (s.off + encLength s.vi.toNat ≤ s.len → ∃ t, exec .encvi s = .next t ∧
      t = { s with buf := t.buf, cnt := BitVec.ofNat 4 (encLength s.vi.toNat), status := s.status &&& 0b100#3 } ∧
      t.cnt.toNat = encLength s.vi.toNat ∧
      (∀ k, k < encLength s.vi.toNat → Memory.read t.buf (s.accessIndex k) = encByte s.vi.toNat k) ∧
      ∀ a, s.outside (encLength s.vi.toNat) a → Memory.read t.buf a = Memory.read s.buf a) ∧
    (s.off + encLength s.vl.toNat ≤ s.len → ∃ t, exec .encvl s = .next t ∧
      t = { s with buf := t.buf, cnt := BitVec.ofNat 4 (encLength s.vl.toNat), status := s.status &&& 0b100#3 } ∧
      t.cnt.toNat = encLength s.vl.toNat ∧
      (∀ k, k < encLength s.vl.toNat → Memory.read t.buf (s.accessIndex k) = encByte s.vl.toNat k) ∧
      ∀ a, s.outside (encLength s.vl.toNat) a → Memory.read t.buf a = Memory.read s.buf a)

/-- R92, whose "Exactly" the spec marks as derived from R46: an encode fails exactly when its string does not fit below
`LEN`; it then ends in BufferUnderrun with `CNT` and
its operand as they were, the bytes that fitted written, all with the continuation bit set, and no other byte
changed. -/
def Obligations.EncodeThatDoesNotFitLeavesItsPrefix : Prop :=
  ∀ s : State, Memory.wf s.buf = true →
    (s.off + encLength s.vi.toNat > s.len ↔ ∃ t, exec .encvi s = .next t ∧ t.code = 2) ∧
    (s.off + encLength s.vl.toNat > s.len ↔ ∃ t, exec .encvl s = .next t ∧ t.code = 2) ∧
    (s.off + encLength s.vi.toNat > s.len → ∃ t, exec .encvi s = .next t ∧
      t = { s with buf := t.buf, status := 0b110#3 } ∧
      (∀ k, s.accessIndex k < s.len → Memory.read t.buf (s.accessIndex k) = encByte s.vi.toNat k ∧
        contBit (encByte s.vi.toNat k) = true) ∧
      ∀ a, s.outside (s.len - s.off) a → Memory.read t.buf a = Memory.read s.buf a) ∧
    (s.off + encLength s.vl.toNat > s.len → ∃ t, exec .encvl s = .next t ∧
      t = { s with buf := t.buf, status := 0b110#3 } ∧
      (∀ k, s.accessIndex k < s.len → Memory.read t.buf (s.accessIndex k) = encByte s.vl.toNat k ∧
        contBit (encByte s.vl.toNat k) = true) ∧
      ∀ a, s.outside (s.len - s.off) a → Memory.read t.buf a = Memory.read s.buf a)

/-- The frame of the two encodes, success or fault: only bytes of the string below `LEN`, `CNT` and `STATUS` change. -/
def Obligations.EncodeChangesOnlyItsStringCntAndStatus : Prop :=
  ∀ s t : State,
    (exec .encvi s = .next t → t = { s with buf := t.buf, cnt := t.cnt, status := t.status } ∧
      ∀ a, (∀ k, k < encLength s.vi.toNat → s.accessIndex k < s.len → a ≠ s.accessIndex k) →
        Memory.read t.buf a = Memory.read s.buf a) ∧
    (exec .encvl s = .next t → t = { s with buf := t.buf, cnt := t.cnt, status := t.status } ∧
      ∀ a, (∀ k, k < encLength s.vl.toNat → s.accessIndex k < s.len → a ≠ s.accessIndex k) →
        Memory.read t.buf a = Memory.read s.buf a)

/-- R60, R94: the length an encode reports is 1 to 5 (1 to 10), the least number of groups that hold the operand, and
the last byte of a string of two or more bytes is not 0. -/
def Obligations.EncodedLengthIsTheLeast : Prop :=
  ∀ s t : State, Memory.wf s.buf = true → t.code = 0 →
    (exec .encvi s = .next t →
      1 ≤ t.cnt.toNat ∧ t.cnt.toNat ≤ 5 ∧ s.vi.toNat < 2 ^ (7 * t.cnt.toNat) ∧
        (∀ m, 1 ≤ m → s.vi.toNat < 2 ^ (7 * m) → t.cnt.toNat ≤ m) ∧
        (2 ≤ t.cnt.toNat → Memory.read t.buf (s.accessIndex (t.cnt.toNat - 1)) ≠ 0)) ∧
    (exec .encvl s = .next t →
      1 ≤ t.cnt.toNat ∧ t.cnt.toNat ≤ 10 ∧ s.vl.toNat < 2 ^ (7 * t.cnt.toNat) ∧
        (∀ m, 1 ≤ m → s.vl.toNat < 2 ^ (7 * m) → t.cnt.toNat ≤ m) ∧
        (2 ≤ t.cnt.toNat → Memory.read t.buf (s.accessIndex (t.cnt.toNat - 1)) ≠ 0))

/-- R62, R90, R91: a negative VarInt takes 5 bytes, the last between `08` and `0F`; a 5-byte non-negative one ends in at
most `07`; a negative VarLong takes 10 bytes, the last `01`; a non-negative one at most 9. -/
def Obligations.NegativeValuesTakeTheFullLength : Prop :=
  ∀ s t : State, Memory.wf s.buf = true → t.code = 0 →
    (exec .encvi s = .next t →
      (s.vi.toInt < 0 → t.cnt = 5 ∧ 0x08 ≤ (Memory.read t.buf (s.accessIndex 4)).toNat ∧
        (Memory.read t.buf (s.accessIndex 4)).toNat ≤ 0x0F) ∧
      (0 ≤ s.vi.toInt → t.cnt = 5 → (Memory.read t.buf (s.accessIndex 4)).toNat ≤ 0x07)) ∧
    (exec .encvl s = .next t →
      (s.vl.toInt < 0 → t.cnt = 10 ∧ Memory.read t.buf (s.accessIndex 9) = 0x01) ∧
      (0 ≤ s.vl.toInt → t.cnt.toNat ≤ 9))

/-- R167, R93: an encode cannot fault with 5 (10) bytes of room, and needs no more room than its own string. -/
def Obligations.EncodeWithRoomSucceeds : Prop :=
  ∀ s : State,
    (s.off + 5 ≤ s.len ∨ s.off + encLength s.vi.toNat ≤ s.len → ∃ t, exec .encvi s = .next t ∧ t.code = 0) ∧
    (s.off + 10 ≤ s.len ∨ s.off + encLength s.vl.toNat ≤ s.len → ∃ t, exec .encvl s = .next t ∧ t.code = 0)

/-! Unit VD. -/

/-- R103: a decode whose first byte with a clear continuation bit is byte `n`, within the width's limit and below `LEN`,
writes the value the `n + 1` bytes denote and their number, clears `CODE`, and changes nothing else. -/
def Obligations.DecodeOfATerminatedString : Prop :=
  ∀ (s : State) (n : Nat), (∀ k, k < n → contBit (s.stringByte k) = true) → contBit (s.stringByte n) = false →
    s.accessIndex n < s.len →
    (n < 5 → exec .decvi s = .next { s with
      vi := s.stringValue 32 (n + 1), cnt := BitVec.ofNat 4 (n + 1), status := s.status &&& 0b100#3 }) ∧
    (n < 10 → exec .decvl s = .next { s with
      vl := s.stringValue 64 (n + 1), cnt := BitVec.ofNat 4 (n + 1), status := s.status &&& 0b100#3 })

/-- R104, R135: 5 (10) bytes that all have the continuation bit set end a decode in SizeExceeded, with the accumulator
and the length of the whole buffer as its payload; no further byte need exist. -/
def Obligations.DecodeOfTooManyGroups : Prop :=
  ∀ s : State,
    ((∀ k, k < 5 → contBit (s.stringByte k) = true) → s.accessIndex 4 < s.len →
      exec .decvi s = .next { s with
        eval := (s.stringValue 32 5).setWidth 64, elen := s.len, status := 0b101#3 }) ∧
    ((∀ k, k < 10 → contBit (s.stringByte k) = true) → s.accessIndex 9 < s.len →
      exec .decvl s = .next { s with eval := s.stringValue 64 10, elen := s.len, status := 0b101#3 })

/-- R105: a buffer that ends after `n` bytes with the continuation bit set, `n` below 5 (10), ends a decode in
BufferUnderrun, with no payload and nothing else changed. -/
def Obligations.DecodeOfATruncatedString : Prop :=
  ∀ (s : State) (n : Nat), (∀ k, k < n → contBit (s.stringByte k) = true) →
    (∀ k, k < n → s.accessIndex k < s.len) → s.len ≤ s.accessIndex n →
    (n < 5 → exec .decvi s = .next { s with status := 0b110#3 }) ∧
    (n < 10 → exec .decvl s = .next { s with status := 0b110#3 })

/-- R106: with `t` the number of leading bytes that have the continuation bit set, counted up to `min(avail, MAXB)`, a
decode succeeds with `CNT` `t + 1`, or ends in SizeExceeded, or ends in BufferUnderrun. -/
def Obligations.DecodeOutcomeIsDecidedByTheLeadingBytes : Prop :=
  ∀ s : State,
    (∃ t, exec .decvi s = .next t ∧
      (s.leading (min s.avail 5) < min s.avail 5 → t.code = 0 ∧ t.cnt.toNat = s.leading (min s.avail 5) + 1) ∧
      (s.leading (min s.avail 5) = 5 → t.code = 1) ∧
      (s.leading (min s.avail 5) = s.avail → s.avail < 5 → t.code = 2)) ∧
    (∃ t, exec .decvl s = .next t ∧
      (s.leading (min s.avail 10) < min s.avail 10 → t.code = 0 ∧ t.cnt.toNat = s.leading (min s.avail 10) + 1) ∧
      (s.leading (min s.avail 10) = 10 → t.code = 1) ∧
      (s.leading (min s.avail 10) = s.avail → s.avail < 10 → t.code = 2))

/-- R107, R109: a string shorter than the limit decodes to a non-negative value below `2^(7n)`: no sign is taken from
the last group; a negative result needs a full-length string whose last payload reaches the sign bit. -/
def Obligations.ShortStringsDecodeToNonNegativeValues : Prop :=
  ∀ s t : State, t.code = 0 →
    (exec .decvi s = .next t → (t.cnt.toNat < 5 → t.vi.toNat < 2 ^ (7 * t.cnt.toNat) ∧ 0 ≤ t.vi.toInt) ∧
      (t.vi.toInt < 0 → t.cnt = 5 ∧ (s.stringByte 4).getLsbD 3 = true)) ∧
    (exec .decvl s = .next t → (t.cnt.toNat < 10 → t.vl.toNat < 2 ^ (7 * t.cnt.toNat) ∧ 0 ≤ t.vl.toInt) ∧
      (t.vl.toInt < 0 → t.cnt = 10 ∧ (s.stringByte 9).getLsbD 0 = true))

/-- R111: bytes outside the string have no influence on a successful decode, and bytes outside the first 5 (10) have
none on any decode. -/
def Obligations.DecodeDependsOnItsStringOnly : Prop :=
  ∀ (s t : State) (m : Memory),
    (exec .decvi s = .next t →
      (∀ k, k < (if t.code = 0 then t.cnt.toNat else 5) → Memory.read m (s.accessIndex k) = s.stringByte k) →
      exec .decvi { s with buf := m } = .next { t with buf := m }) ∧
    (exec .decvl s = .next t →
      (∀ k, k < (if t.code = 0 then t.cnt.toNat else 10) → Memory.read m (s.accessIndex k) = s.stringByte k) →
      exec .decvl { s with buf := m } = .next { t with buf := m })

/-- R65: the payload bits of the last permitted byte that lie beyond the width (bits 6 to 4 of the 5th byte of a VarInt,
6 to 1 of the 10th of a VarLong) change nothing of a decode. -/
def Obligations.ExcessPayloadBitsAreDropped : Prop :=
  ∀ (s t : State) (b : Byte), Memory.wf s.buf = true →
    (exec .decvi s = .next t → contBit b = contBit (s.stringByte 4) →
      b.extractLsb' 0 4 = (s.stringByte 4).extractLsb' 0 4 →
      exec .decvi { s with buf := Memory.write s.buf (s.accessIndex 4) b } =
        .next { t with buf := Memory.write s.buf (s.accessIndex 4) b }) ∧
    (exec .decvl s = .next t → contBit b = contBit (s.stringByte 9) →
      b.extractLsb' 0 1 = (s.stringByte 9).extractLsb' 0 1 →
      exec .decvl { s with buf := Memory.write s.buf (s.accessIndex 9) b } =
        .next { t with buf := Memory.write s.buf (s.accessIndex 9) b })

/-- The frame of the two decodes, success or fault: no byte changes; only the result register, `CNT`, `STATUS`, `EVAL`
and `ELEN` can, the first two only on success and the last two only on SizeExceeded (R110). -/
def Obligations.DecodeChangesOnlyItsResults : Prop :=
  ∀ s t : State,
    (exec .decvi s = .next t →
      t = { s with vi := t.vi, cnt := t.cnt, eval := t.eval, elen := t.elen, status := t.status } ∧
      (t.code ≠ 0 → t.vi = s.vi ∧ t.cnt = s.cnt) ∧ (t.code ≠ 1 → t.eval = s.eval ∧ t.elen = s.elen)) ∧
    (exec .decvl s = .next t →
      t = { s with vl := t.vl, cnt := t.cnt, eval := t.eval, elen := t.elen, status := t.status } ∧
      (t.code ≠ 0 → t.vl = s.vl ∧ t.cnt = s.cnt) ∧ (t.code ≠ 1 → t.eval = s.eval ∧ t.elen = s.elen))

/-! Units VE and VD together. -/

/-- R96, R113: a decode at the `OFF` of a successful encode of its width returns the value and the count, whatever the
result register held, and leaves the buffer as the encode left it. -/
def Obligations.DecodeAfterEncodeReturnsTheValue : Prop :=
  ∀ s t : State, Memory.wf s.buf = true → t.code = 0 →
    (exec .encvi s = .next t → ∀ v : BitVec 32,
      exec .decvi { t with vi := v } = .next { t with vi := s.vi, status := t.status &&& 0b100#3 }) ∧
    (exec .encvl s = .next t → ∀ v : BitVec 64,
      exec .decvl { t with vl := v } = .next { t with vl := s.vl, status := t.status &&& 0b100#3 })

/-- R170: a decode started at the `OFF` of an encode that ended in BufferUnderrun runs through the prefix: it ends in
BufferUnderrun, but for a DECVI on a prefix of 5 or more bytes left by an ENCVL, which ends in SizeExceeded. -/
def Obligations.DecodeOfAFailedEncodesPrefixFaults : Prop :=
  ∀ s t : State, Memory.wf s.buf = true → t.code = 2 →
    (exec .encvi s = .next t →
      (∃ t', exec .decvi t = .next t' ∧ t'.code = 2) ∧ ∃ t', exec .decvl t = .next t' ∧ t'.code = 2) ∧
    (exec .encvl s = .next t →
      (∃ t', exec .decvl t = .next t' ∧ t'.code = 2) ∧
      ∃ t', exec .decvi t = .next t' ∧ t'.code = if 5 ≤ s.len - s.off then 1 else 2)

/-- R82: the loop of a VE or VD command ends within `MAXB(W)` passes, and the state it ends in is the one the command
answers; so the model's bound on the passes (assumption 13) is never what ends a command, and allowing more changes
nothing. -/
def Obligations.PassesAreBoundedByMaxb : Prop :=
  ∀ (s : State) (k : Nat),
    (∀ v : BitVec 32, vePasses 5 (veStart v) s = .finished (encodeWith v s)) ∧
    (∀ v : BitVec 64, vePasses 10 (veStart v) s = .finished (encodeWith v s)) ∧
    vdPasses State.putVi 5 (vdStart 32) s = .finished (decodeWith State.putVi s) ∧
    vdPasses State.putVl 10 (vdStart 64) s = .finished (decodeWith State.putVl s) ∧
    (∀ v : BitVec 32, veRun (5 + k) (veStart v) s = encodeWith v s) ∧
    (∀ v : BitVec 64, veRun (10 + k) (veStart v) s = encodeWith v s) ∧
    vdRun State.putVi (5 + k) (vdStart 32) s = decodeWith State.putVi s ∧
    vdRun State.putVl (10 + k) (vdStart 64) s = decodeWith State.putVl s

/-- R172: after a successful VE or VD command `u(OFF) + u(CNT)` is at most `u(LEN)`, below `2^AW`, and `ADV` moves the
cursor there. -/
def Obligations.CursorFitsAfterASuccess : Prop :=
  ∀ (i : Instr) (s t : State), s.Inv → i = .encvi ∨ i = .encvl ∨ i = .decvi ∨ i = .decvl →
    exec i s = .next t → t.code = 0 →
    t.off + t.cnt.toNat ≤ t.len ∧ t.len < t.cfg.space ∧
      ∀ rest, step { t with pending := .adv :: rest } =
        .next { t with off := t.off + t.cnt.toNat, pending := rest }

/-! Units PE and PD. -/

/-- R115, R116: POSENC puts the low 26 bits of x in bits 63 to 38, of z in bits 37 to 12, and the low 12 bits of y in
bits 11 to 0 of `PW`, with `CODE` 0, and changes nothing else. -/
def Obligations.PosencPacksTheThreeFields : Prop :=
  ∀ s : State,
    exec .posenc s = .next { s with
      pw := s.px.extractLsb' 0 26 ++ (s.pz.extractLsb' 0 26 ++ s.py.extractLsb' 0 12)
      status := s.status &&& 0b100#3 } ∧
    ∀ t, exec .posenc s = .next t →
      t.pw.toNat = s.px.toNat % 2 ^ 26 * 2 ^ 38 + s.pz.toNat % 2 ^ 26 * 2 ^ 12 + s.py.toNat % 2 ^ 12

/-- R123, R124: POSDEC sign-extends bits 63 to 38 into `PX`, 37 to 12 into `PZ` and 11 to 0 into `PY`: a field at or
above its midpoint reads as itself less its full range; `CODE` is 0 and nothing else changes. -/
def Obligations.PosdecSignExtendsTheThreeFields : Prop :=
  ∀ s : State,
    exec .posdec s = .next { s with
      px := (s.pw.extractLsb' 38 26).signExtend 32
      py := (s.pw.extractLsb' 0 12).signExtend 32
      pz := (s.pw.extractLsb' 12 26).signExtend 32
      status := s.status &&& 0b100#3 } ∧
    ∀ t, exec .posdec s = .next t →
      t.px.toInt = (if (s.pw.extractLsb' 38 26).toNat < 2 ^ 25 then ((s.pw.extractLsb' 38 26).toNat : Int)
        else ((s.pw.extractLsb' 38 26).toNat : Int) - 2 ^ 26) ∧
      t.pz.toInt = (if (s.pw.extractLsb' 12 26).toNat < 2 ^ 25 then ((s.pw.extractLsb' 12 26).toNat : Int)
        else ((s.pw.extractLsb' 12 26).toNat : Int) - 2 ^ 26) ∧
      t.py.toInt = (if (s.pw.extractLsb' 0 12).toNat < 2 ^ 11 then ((s.pw.extractLsb' 0 12).toNat : Int)
        else ((s.pw.extractLsb' 0 12).toNat : Int) - 2 ^ 12)

/-- R129: the range of a decoded coordinate, for every word. -/
def Obligations.DecodedCoordinatesAreInRange : Prop :=
  ∀ s t : State, exec .posdec s = .next t →
    (-2 ^ 25 ≤ t.px.toInt ∧ t.px.toInt ≤ 2 ^ 25 - 1) ∧ (-2 ^ 25 ≤ t.pz.toInt ∧ t.pz.toInt ≤ 2 ^ 25 - 1) ∧
      (-2 ^ 11 ≤ t.py.toInt ∧ t.py.toInt ≤ 2 ^ 11 - 1)

/-- R130, R122, which the spec marks as derived from R127 and R7: POSENC after POSDEC returns every word, and
POSDEC after POSENC every in-range triple, negative values included. -/
def Obligations.PositionRoundTrips : Prop :=
  (∀ s t : State, exec .posdec s = .next t → ∃ t', exec .posenc t = .next t' ∧ t'.pw = s.pw) ∧
    ∀ s t : State, exec .posenc s = .next t →
      (-2 ^ 25 ≤ s.px.toInt ∧ s.px.toInt < 2 ^ 25) → (-2 ^ 11 ≤ s.py.toInt ∧ s.py.toInt < 2 ^ 11) →
      (-2 ^ 25 ≤ s.pz.toInt ∧ s.pz.toInt < 2 ^ 25) →
      ∃ t', exec .posdec t = .next t' ∧ t'.px = s.px ∧ t'.py = s.py ∧ t'.pz = s.pz

/-- R120: POSENC takes any coordinate without a fault, and POSDEC of its word returns the coordinate reduced into the
field's signed range. -/
def Obligations.OutOfRangeCoordinatesAreReduced : Prop :=
  ∀ s t : State, exec .posenc s = .next t → t.code = 0 ∧ ∃ t', exec .posdec t = .next t' ∧
    t'.px.toInt = (s.px.toInt + 2 ^ 25) % 2 ^ 26 - 2 ^ 25 ∧
    t'.py.toInt = (s.py.toInt + 2 ^ 11) % 2 ^ 12 - 2 ^ 11 ∧
    t'.pz.toInt = (s.pz.toInt + 2 ^ 25) % 2 ^ 26 - 2 ^ 25

/-- R117, R118: the bits of a coordinate above its field have no effect on `PW`, and a change of one coordinate changes
only the bits of its own field. -/
def Obligations.PositionFieldsAreIsolated : Prop :=
  ∀ (s t : State) (v : BitVec 32), exec .posenc s = .next t →
    (∃ t', exec .posenc { s with px := v } = .next t' ∧ t'.pw.extractLsb' 0 38 = t.pw.extractLsb' 0 38 ∧
      (v.extractLsb' 0 26 = s.px.extractLsb' 0 26 → t'.pw = t.pw)) ∧
    (∃ t', exec .posenc { s with pz := v } = .next t' ∧ t'.pw.extractLsb' 38 26 = t.pw.extractLsb' 38 26 ∧
      t'.pw.extractLsb' 0 12 = t.pw.extractLsb' 0 12 ∧
      (v.extractLsb' 0 26 = s.pz.extractLsb' 0 26 → t'.pw = t.pw)) ∧
    (∃ t', exec .posenc { s with py := v } = .next t' ∧ t'.pw.extractLsb' 12 52 = t.pw.extractLsb' 12 52 ∧
      (v.extractLsb' 0 12 = s.py.extractLsb' 0 12 → t'.pw = t.pw))

/-! Rules over all commands. -/

/-- R36: the VarInt/VarLong commands neither read nor write the Position registers, and the Position commands neither
read nor write the VarInt/VarLong registers or the buffer. -/
def Obligations.TheTwoCodecsAreSeparate : Prop :=
  (∀ (i : Instr) (s t : State), i = .encvi ∨ i = .encvl ∨ i = .decvi ∨ i = .decvl → exec i s = .next t →
    (t.px = s.px ∧ t.py = s.py ∧ t.pz = s.pz ∧ t.pw = s.pw) ∧
      ∀ (x y z : BitVec 32) (w : BitVec 64),
        exec i (s.withPositionRegs x y z w) = .next (t.withPositionRegs x y z w)) ∧
    ∀ (i : Instr) (s t : State), i = .posenc ∨ i = .posdec → exec i s = .next t →
      (t.vi = s.vi ∧ t.vl = s.vl ∧ t.off = s.off ∧ t.len = s.len ∧ t.cnt = s.cnt ∧ t.eval = s.eval ∧
        t.elen = s.elen ∧ t.buf = s.buf) ∧
      ∀ v : State, exec i (State.withVarintPart v s) = .next (State.withVarintPart v t)

/-- R6: the outcome of a command is a function of its own operands only: two states that agree on what the command reads
come to the same outcome, whatever earlier commands left in the other registers. A
decode that reads fewer bytes than the 5 (10) of `SameOperands` is `DecodeDependsOnItsStringOnly`. -/
def Obligations.OutcomeDependsOnTheOperandsOnly : Prop :=
  ∀ (i : Instr) (s s' : State), Memory.wf s.buf = true → Memory.wf s'.buf = true → SameOperands i s s' →
    ∃ t t', exec i s = .next t ∧ exec i s' = .next t' ∧ SameOutcome i t t'

/-- R180, which the spec marks as derived from R6: issuing a command again on the state it left gives that same state. -/
def Obligations.RepeatingACommandChangesNothing : Prop :=
  ∀ (i : Instr) (s t : State), Memory.wf s.buf = true → exec i s = .next t → exec i t = .next t

/-! Host actions. -/

/-- R79, R19: a host register write is one step that changes that register alone, to the value at the register's own
width, `bv_N(value)` for every integer, negative ones included. That a value wider than the register is cut to it is
the model's choice (assumption 7). A read changes nothing; that a `BUFGET` within the index space and a `CHK`, one that
fails included, change nothing and stop nothing is the model's reading (assumption 11). -/
def Obligations.HostRegisterActionsChangeOneRegister : Prop :=
  ∀ (s : State) (v : Int) (rest : List HostAction),
    step { s with pending := .wr .vi v :: rest } = .next { s with vi := BitVec.ofInt 32 v, pending := rest } ∧
    step { s with pending := .wr .vl v :: rest } = .next { s with vl := BitVec.ofInt 64 v, pending := rest } ∧
    step { s with pending := .wr .px v :: rest } = .next { s with px := BitVec.ofInt 32 v, pending := rest } ∧
    step { s with pending := .wr .py v :: rest } = .next { s with py := BitVec.ofInt 32 v, pending := rest } ∧
    step { s with pending := .wr .pz v :: rest } = .next { s with pz := BitVec.ofInt 32 v, pending := rest } ∧
    step { s with pending := .wr .pw v :: rest } = .next { s with pw := BitVec.ofInt 64 v, pending := rest } ∧
    step { s with pending := .wr .off v :: rest } = .next { s with off := bvAW s.cfg v, pending := rest } ∧
    step { s with pending := .wr .len v :: rest } = .next { s with len := bvAW s.cfg v, pending := rest } ∧
    (∀ n : Nat, n < s.cfg.space →
      step { s with pending := .wr .off n :: rest } = .next { s with off := n, pending := rest } ∧
      step { s with pending := .wr .len n :: rest } = .next { s with len := n, pending := rest }) ∧
    (∀ r : ReadableReg, step { s with pending := .rd r :: rest } = .next { s with pending := rest }) ∧
    (∀ c : BitVec 2, step { s with pending := .chk c :: rest } = .next { s with pending := rest }) ∧
    ∀ a n : Nat, a + n ≤ s.cfg.space →
      step { s with pending := .bufget a n :: rest } = .next { s with pending := rest }

/-- R80, R33: `BUFSET` makes the first `len` bytes the listed ones padded with `EE` and writes `len` to `LEN`; a host
byte write changes that byte alone. Other bytes and registers keep their values. A byte at an index of `2^AW` or more
does not exist: there the model stops (the model's choice, assumption 9). -/
def Obligations.HostBufferActionsWriteTheirBytes : Prop :=
  ∀ (s : State) (rest : List HostAction), Memory.wf s.buf = true →
    (∀ (n : Nat) (bs : List Byte), n < s.cfg.space → bs.length ≤ n → s.pending = .bufset n bs :: rest →
      ∃ t, step s = .next t ∧ t = { s with buf := t.buf, len := n, pending := rest } ∧
        (∀ k, k < n → Memory.read t.buf k = bs.getD k 0xEE) ∧
        ∀ a, n ≤ a → Memory.read t.buf a = Memory.read s.buf a) ∧
    (∀ (a : Nat) (b : Byte), s.pending = .bufWrite a b :: rest → a < s.cfg.space →
      ∃ t, step s = .next t ∧ t = { s with buf := t.buf, pending := rest } ∧ Memory.read t.buf a = b ∧
        ∀ a', a' ≠ a → Memory.read t.buf a' = Memory.read s.buf a') ∧
    ∀ (a : Nat) (b : Byte), s.pending = .bufWrite a b :: rest → s.cfg.space ≤ a →
      step s = .fault .indexOutsideSpace

/-- R81: `ADV` writes `u(OFF) + u(CNT)` to `OFF` and changes nothing else. Where the sum reaches `2^AW`, which the host
must not let happen and for which the spec states no result, `OFF` takes a free value of `AW` bits and nothing else
changes but the model's own count of free values (the model's choice, assumption 8). -/
def Obligations.AdvAddsCntToOff : Prop :=
  ∀ (s : State) (rest : List HostAction), s.pending = .adv :: rest →
    (s.off + s.cnt.toNat < s.cfg.space → step s = .next { s with off := s.off + s.cnt.toNat, pending := rest }) ∧
    (s.cfg.space ≤ s.off + s.cnt.toNat →
      step s = .next { s with off := s.freeOff, freeCount := s.freeCount + 1, pending := rest } ∧
        s.freeOff < s.cfg.space)
end

