-- ==== Sys2Proof/Laws/Memory.lean ====
section
/-! SUPPORT. The buffer's memory: reading after writing, and the canonical form. -/

namespace Sys2Proof.Machine

theorem Memory.wfFrom_mono {lo hi : Nat} {m : Memory} (h : lo ≤ hi) (hw : Memory.wfFrom hi m = true) :
    Memory.wfFrom lo m = true := by
  cases m with
  | nil => rfl
  | cons c m =>
    simp only [Memory.wfFrom, Bool.and_eq_true, decide_eq_true_eq] at hw ⊢
    exact ⟨⟨le_trans h hw.1.1, hw.1.2⟩, hw.2⟩

/-- An index below every listed one reads as unlisted. -/
theorem Memory.read_below {lo a : Nat} {m : Memory} (hw : Memory.wfFrom lo m = true) (ha : a < lo) :
    Memory.read m a = unlistedByte := by
  induction m generalizing lo with
  | nil => rfl
  | cons c m ih =>
    obtain ⟨k, v⟩ := c
    simp only [Memory.wfFrom, Bool.and_eq_true, decide_eq_true_eq] at hw
    have hk : k ≠ a := by omega
    simp only [Memory.read, if_neg hk]
    exact ih hw.2 (by omega)

theorem Memory.read_write_same_from {lo : Nat} {m : Memory} (hw : Memory.wfFrom lo m = true) (a : Nat) (b : Byte) :
    Memory.read (Memory.write m a b) a = b := by
  induction m generalizing lo with
  | nil =>
    by_cases hb : b = unlistedByte <;> simp [Memory.write, Memory.read, hb]
  | cons c m ih =>
    obtain ⟨k, v⟩ := c
    simp only [Memory.wfFrom, Bool.and_eq_true, decide_eq_true_eq] at hw
    by_cases hlt : a < k
    · by_cases hb : b = unlistedByte
      · have hk : k ≠ a := by omega
        simp only [Memory.write, if_pos hlt, if_pos hb, Memory.read, if_neg hk]
        exact (Memory.read_below hw.2 (by omega)).trans hb.symm
      · simp [Memory.write, hlt, hb, Memory.read]
    · by_cases he : a = k
      · by_cases hb : b = unlistedByte
        · subst he
          simp only [Memory.write, lt_irrefl, if_false, if_true, if_pos hb]
          exact (Memory.read_below hw.2 (by omega)).trans hb.symm
        · simp [Memory.write, he, hb, Memory.read]
      · have hk : k ≠ a := fun h => he h.symm
        simp only [Memory.write, if_neg hlt, if_neg he, Memory.read, if_neg hk]
        exact ih hw.2

/-- A read after a write to the same index gives the byte written. -/
theorem Memory.read_write_same {m : Memory} (hw : Memory.wf m = true) (a : Nat) (b : Byte) :
    Memory.read (Memory.write m a b) a = b :=
  Memory.read_write_same_from hw a b

/-- A write leaves every other index alone. -/
theorem Memory.read_write_other (m : Memory) {a a' : Nat} (b : Byte) (h : a' ≠ a) :
    Memory.read (Memory.write m a b) a' = Memory.read m a' := by
  induction m with
  | nil =>
    by_cases hb : b = unlistedByte <;> simp [Memory.write, Memory.read, hb, h.symm]
  | cons c m ih =>
    obtain ⟨k, v⟩ := c
    by_cases hlt : a < k
    · by_cases hb : b = unlistedByte <;> simp [Memory.write, Memory.read, hb, hlt, h.symm]
    · by_cases he : a = k
      · subst he
        by_cases hb : b = unlistedByte <;> simp [Memory.write, Memory.read, hb, h.symm]
      · simp only [Memory.write, if_neg hlt, if_neg he, Memory.read, ih]

theorem Memory.wfFrom_write {lo : Nat} {m : Memory} (hw : Memory.wfFrom lo m = true) {a : Nat} (ha : lo ≤ a)
    (b : Byte) : Memory.wfFrom lo (Memory.write m a b) = true := by
  induction m generalizing lo with
  | nil => by_cases hb : b = unlistedByte <;> simp [Memory.write, Memory.wfFrom, hb, ha]
  | cons c m ih =>
    obtain ⟨k, v⟩ := c
    have hw' := hw
    simp only [Memory.wfFrom, Bool.and_eq_true, decide_eq_true_eq] at hw'
    by_cases hlt : a < k
    · by_cases hb : b = unlistedByte
      · simp only [Memory.write, if_pos hlt, if_pos hb]
        exact hw
      · simp only [Memory.write, if_pos hlt, if_neg hb, Memory.wfFrom, Bool.and_eq_true, decide_eq_true_eq,
          bne_iff_ne, ne_eq]
        exact ⟨⟨ha, hb⟩, ⟨hlt, by simpa using hw'.1.2⟩, hw'.2⟩
    · by_cases he : a = k
      · subst he
        by_cases hb : b = unlistedByte
        · simp only [Memory.write, lt_irrefl, if_false, if_true, if_pos hb]
          exact Memory.wfFrom_mono (by omega) hw'.2
        · simp only [Memory.write, lt_irrefl, if_false, if_true, if_neg hb, Memory.wfFrom, Bool.and_eq_true,
            decide_eq_true_eq, bne_iff_ne, ne_eq]
          exact ⟨⟨ha, hb⟩, hw'.2⟩
      · simp only [Memory.write, if_neg hlt, if_neg he, Memory.wfFrom, Bool.and_eq_true, decide_eq_true_eq]
        exact ⟨hw'.1, ih hw'.2 (by omega)⟩

/-- A write keeps the canonical form. -/
theorem Memory.wf_write {m : Memory} (hw : Memory.wf m = true) (a : Nat) (b : Byte) :
    Memory.wf (Memory.write m a b) = true :=
  Memory.wfFrom_write hw (Nat.zero_le a) b

theorem Memory.below_write {n : Nat} {m : Memory} (hm : Memory.below n m = true) {a : Nat} (ha : a < n) (b : Byte) :
    Memory.below n (Memory.write m a b) = true := by
  induction m with
  | nil => by_cases hb : b = unlistedByte <;> simp [Memory.write, Memory.below, hb, ha]
  | cons c m ih =>
    obtain ⟨k, v⟩ := c
    simp only [Memory.below, List.all_cons, Bool.and_eq_true, decide_eq_true_eq] at hm ih ⊢
    by_cases hlt : a < k
    · by_cases hb : b = unlistedByte
      · simpa [Memory.write, hlt, hb] using hm
      · simpa [Memory.write, hlt, hb, ha] using hm
    · by_cases he : a = k
      · subst he
        by_cases hb : b = unlistedByte
        · simpa [Memory.write, hb] using hm.2
        · simpa [Memory.write, hb, ha] using hm.2
      · simpa [Memory.write, hlt, he, hm.1] using ih hm.2

/-- Two memories in canonical form that read alike everywhere are equal data. -/
theorem Memory.ext_from {lo : Nat} {m m' : Memory} (hm : Memory.wfFrom lo m = true) (hm' : Memory.wfFrom lo m' = true)
    (h : ∀ a, Memory.read m a = Memory.read m' a) : m = m' := by
  induction m generalizing lo m' with
  | nil =>
    cases m' with
    | nil => rfl
    | cons c m' =>
      obtain ⟨k, v⟩ := c
      have hk := h k
      simp only [Memory.wfFrom, Bool.and_eq_true, bne_iff_ne] at hm'
      simp only [Memory.read, if_true] at hk
      exact absurd hk.symm hm'.1.2
  | cons c m ih =>
    obtain ⟨k, v⟩ := c
    simp only [Memory.wfFrom, Bool.and_eq_true, bne_iff_ne, decide_eq_true_eq] at hm
    cases m' with
    | nil =>
      have hk := h k
      simp only [Memory.read, if_true] at hk
      exact absurd hk hm.1.2
    | cons c' m' =>
      obtain ⟨k', v'⟩ := c'
      simp only [Memory.wfFrom, Bool.and_eq_true, bne_iff_ne, decide_eq_true_eq] at hm'
      have hk := h k
      have hk' := h k'
      have hkk : k = k' := by
        rcases Nat.lt_trichotomy k k' with hl | he | hl
        · have hr := Memory.read_below hm'.2 (show k < k' + 1 by omega)
          simp only [Memory.read, if_true, if_neg (show k' ≠ k by omega), hr] at hk
          exact absurd hk hm.1.2
        · exact he
        · have hr := Memory.read_below hm.2 (show k' < k + 1 by omega)
          simp only [Memory.read, if_true, if_neg (show k ≠ k' by omega), hr] at hk'
          exact absurd hk'.symm hm'.1.2
      subst hkk
      have hv : v = v' := by simpa [Memory.read] using hk
      subst hv
      have ht : m = m' := by
        refine ih hm.2 hm'.2 fun a => ?_
        by_cases ha : k = a
        · subst ha
          rw [Memory.read_below hm.2 (by omega), Memory.read_below hm'.2 (by omega)]
        · simpa [Memory.read, ha] using h a
      rw [ht]

theorem Memory.ext {m m' : Memory} (hm : Memory.wf m = true) (hm' : Memory.wf m' = true)
    (h : ∀ a, Memory.read m a = Memory.read m' a) : m = m' :=
  Memory.ext_from hm hm' h

/-! Writing a list of bytes. -/

@[simp] theorem Memory.writeList_nil (m : Memory) (a : Nat) : Memory.writeList m a [] = m := rfl

@[simp] theorem Memory.writeList_cons (m : Memory) (a : Nat) (b : Byte) (bs : List Byte) :
    Memory.writeList m a (b :: bs) = Memory.writeList (Memory.write m a b) (a + 1) bs := rfl

theorem Memory.wf_writeList {m : Memory} (hw : Memory.wf m = true) (a : Nat) (bs : List Byte) :
    Memory.wf (Memory.writeList m a bs) = true := by
  induction bs generalizing m a with
  | nil => exact hw
  | cons b bs ih => exact ih (Memory.wf_write hw a b) (a + 1)

theorem Memory.below_writeList {n : Nat} {m : Memory} (hm : Memory.below n m = true) {a : Nat} {bs : List Byte}
    (ha : a + bs.length ≤ n) : Memory.below n (Memory.writeList m a bs) = true := by
  induction bs generalizing m a with
  | nil => exact hm
  | cons b bs ih =>
    simp only [List.length_cons] at ha
    exact ih (Memory.below_write hm (by omega) b) (by omega)

/-- Writing a list leaves every index outside its range alone. -/
theorem Memory.read_writeList_other (m : Memory) (a : Nat) (bs : List Byte) {a' : Nat}
    (h : a' < a ∨ a + bs.length ≤ a') : Memory.read (Memory.writeList m a bs) a' = Memory.read m a' := by
  induction bs generalizing m a with
  | nil => rfl
  | cons b bs ih =>
    simp only [List.length_cons] at h
    rw [Memory.writeList_cons, ih _ _ (by omega), Memory.read_write_other _ _ (by omega)]

/-- Writing a list puts its byte `k` at index `a + k`. -/
theorem Memory.read_writeList_at {m : Memory} (hw : Memory.wf m = true) (a : Nat) (bs : List Byte) {k : Nat}
    (h : k < bs.length) : Memory.read (Memory.writeList m a bs) (a + k) = bs[k] := by
  induction bs generalizing m a k with
  | nil => simp at h
  | cons b bs ih =>
    rw [Memory.writeList_cons]
    cases k with
    | zero =>
      rw [Memory.read_writeList_other _ _ _ (by omega)]
      simpa using Memory.read_write_same hw a b
    | succ k =>
      have := ih (Memory.wf_write hw a b) (a + 1) (k := k) (by simpa using h)
      simpa [show a + (k + 1) = a + 1 + k by omega] using this

end Sys2Proof.Machine
end

