-- ==== Sys2Proof/Laws/State.lean ====
section
/-! SUPPORT. One lemma per field per named update of the state, so that no proof unfolds a record update. -/

namespace Sys2Proof.Machine

section
variable (c : BitVec 2) (s : State)

@[simp] theorem State.setCode_cfg : (s.setCode c).cfg = s.cfg := rfl
@[simp] theorem State.setCode_vi : (s.setCode c).vi = s.vi := rfl
@[simp] theorem State.setCode_vl : (s.setCode c).vl = s.vl := rfl
@[simp] theorem State.setCode_off : (s.setCode c).off = s.off := rfl
@[simp] theorem State.setCode_len : (s.setCode c).len = s.len := rfl
@[simp] theorem State.setCode_cnt : (s.setCode c).cnt = s.cnt := rfl
@[simp] theorem State.setCode_eval : (s.setCode c).eval = s.eval := rfl
@[simp] theorem State.setCode_elen : (s.setCode c).elen = s.elen := rfl
@[simp] theorem State.setCode_px : (s.setCode c).px = s.px := rfl
@[simp] theorem State.setCode_py : (s.setCode c).py = s.py := rfl
@[simp] theorem State.setCode_pz : (s.setCode c).pz = s.pz := rfl
@[simp] theorem State.setCode_pw : (s.setCode c).pw = s.pw := rfl
@[simp] theorem State.setCode_cmd : (s.setCode c).cmd = s.cmd := rfl
@[simp] theorem State.setCode_buf : (s.setCode c).buf = s.buf := rfl
@[simp] theorem State.setCode_pending : (s.setCode c).pending = s.pending := rfl
@[simp] theorem State.setCode_freeCount : (s.setCode c).freeCount = s.freeCount := rfl
@[simp] theorem State.setCode_status : (s.setCode c).status = s.status.extractLsb' 2 1 ++ c := rfl

end

section
variable (s : State)

@[simp] theorem State.setFseen_cfg : (s.setFseen).cfg = s.cfg := rfl
@[simp] theorem State.setFseen_vi : (s.setFseen).vi = s.vi := rfl
@[simp] theorem State.setFseen_vl : (s.setFseen).vl = s.vl := rfl
@[simp] theorem State.setFseen_off : (s.setFseen).off = s.off := rfl
@[simp] theorem State.setFseen_len : (s.setFseen).len = s.len := rfl
@[simp] theorem State.setFseen_cnt : (s.setFseen).cnt = s.cnt := rfl
@[simp] theorem State.setFseen_eval : (s.setFseen).eval = s.eval := rfl
@[simp] theorem State.setFseen_elen : (s.setFseen).elen = s.elen := rfl
@[simp] theorem State.setFseen_px : (s.setFseen).px = s.px := rfl
@[simp] theorem State.setFseen_py : (s.setFseen).py = s.py := rfl
@[simp] theorem State.setFseen_pz : (s.setFseen).pz = s.pz := rfl
@[simp] theorem State.setFseen_pw : (s.setFseen).pw = s.pw := rfl
@[simp] theorem State.setFseen_cmd : (s.setFseen).cmd = s.cmd := rfl
@[simp] theorem State.setFseen_buf : (s.setFseen).buf = s.buf := rfl
@[simp] theorem State.setFseen_pending : (s.setFseen).pending = s.pending := rfl
@[simp] theorem State.setFseen_freeCount : (s.setFseen).freeCount = s.freeCount := rfl
@[simp] theorem State.setFseen_status : s.setFseen.status = s.status ||| 0b100#3 := rfl

end

section
variable (s : State)

@[simp] theorem State.succeed_cfg : (s.succeed).cfg = s.cfg := rfl
@[simp] theorem State.succeed_vi : (s.succeed).vi = s.vi := rfl
@[simp] theorem State.succeed_vl : (s.succeed).vl = s.vl := rfl
@[simp] theorem State.succeed_off : (s.succeed).off = s.off := rfl
@[simp] theorem State.succeed_len : (s.succeed).len = s.len := rfl
@[simp] theorem State.succeed_cnt : (s.succeed).cnt = s.cnt := rfl
@[simp] theorem State.succeed_eval : (s.succeed).eval = s.eval := rfl
@[simp] theorem State.succeed_elen : (s.succeed).elen = s.elen := rfl
@[simp] theorem State.succeed_px : (s.succeed).px = s.px := rfl
@[simp] theorem State.succeed_py : (s.succeed).py = s.py := rfl
@[simp] theorem State.succeed_pz : (s.succeed).pz = s.pz := rfl
@[simp] theorem State.succeed_pw : (s.succeed).pw = s.pw := rfl
@[simp] theorem State.succeed_cmd : (s.succeed).cmd = s.cmd := rfl
@[simp] theorem State.succeed_buf : (s.succeed).buf = s.buf := rfl
@[simp] theorem State.succeed_pending : (s.succeed).pending = s.pending := rfl
@[simp] theorem State.succeed_freeCount : (s.succeed).freeCount = s.freeCount := rfl

end

section
variable (c : BitVec 3) (s : State)

@[simp] theorem State.writeCmd_cfg : (State.writeCmd c s).cfg = s.cfg := rfl
@[simp] theorem State.writeCmd_vi : (State.writeCmd c s).vi = s.vi := rfl
@[simp] theorem State.writeCmd_vl : (State.writeCmd c s).vl = s.vl := rfl
@[simp] theorem State.writeCmd_off : (State.writeCmd c s).off = s.off := rfl
@[simp] theorem State.writeCmd_len : (State.writeCmd c s).len = s.len := rfl
@[simp] theorem State.writeCmd_cnt : (State.writeCmd c s).cnt = s.cnt := rfl
@[simp] theorem State.writeCmd_eval : (State.writeCmd c s).eval = s.eval := rfl
@[simp] theorem State.writeCmd_elen : (State.writeCmd c s).elen = s.elen := rfl
@[simp] theorem State.writeCmd_px : (State.writeCmd c s).px = s.px := rfl
@[simp] theorem State.writeCmd_py : (State.writeCmd c s).py = s.py := rfl
@[simp] theorem State.writeCmd_pz : (State.writeCmd c s).pz = s.pz := rfl
@[simp] theorem State.writeCmd_pw : (State.writeCmd c s).pw = s.pw := rfl
@[simp] theorem State.writeCmd_status : (State.writeCmd c s).status = s.status := rfl
@[simp] theorem State.writeCmd_buf : (State.writeCmd c s).buf = s.buf := rfl
@[simp] theorem State.writeCmd_pending : (State.writeCmd c s).pending = s.pending := rfl
@[simp] theorem State.writeCmd_freeCount : (State.writeCmd c s).freeCount = s.freeCount := rfl
@[simp] theorem State.writeCmd_cmd : (State.writeCmd c s).cmd = c := rfl

end

section
variable (rest : List HostAction) (s : State)

@[simp] theorem State.withPending_cfg : (State.withPending rest s).cfg = s.cfg := rfl
@[simp] theorem State.withPending_vi : (State.withPending rest s).vi = s.vi := rfl
@[simp] theorem State.withPending_vl : (State.withPending rest s).vl = s.vl := rfl
@[simp] theorem State.withPending_off : (State.withPending rest s).off = s.off := rfl
@[simp] theorem State.withPending_len : (State.withPending rest s).len = s.len := rfl
@[simp] theorem State.withPending_cnt : (State.withPending rest s).cnt = s.cnt := rfl
@[simp] theorem State.withPending_eval : (State.withPending rest s).eval = s.eval := rfl
@[simp] theorem State.withPending_elen : (State.withPending rest s).elen = s.elen := rfl
@[simp] theorem State.withPending_px : (State.withPending rest s).px = s.px := rfl
@[simp] theorem State.withPending_py : (State.withPending rest s).py = s.py := rfl
@[simp] theorem State.withPending_pz : (State.withPending rest s).pz = s.pz := rfl
@[simp] theorem State.withPending_pw : (State.withPending rest s).pw = s.pw := rfl
@[simp] theorem State.withPending_cmd : (State.withPending rest s).cmd = s.cmd := rfl
@[simp] theorem State.withPending_status : (State.withPending rest s).status = s.status := rfl
@[simp] theorem State.withPending_buf : (State.withPending rest s).buf = s.buf := rfl
@[simp] theorem State.withPending_pending : (State.withPending rest s).pending = rest := rfl
@[simp] theorem State.withPending_freeCount : (State.withPending rest s).freeCount = s.freeCount := rfl

end

section
variable (v : BitVec 32) (s : State)

@[simp] theorem State.putVi_cfg : (State.putVi v s).cfg = s.cfg := rfl
@[simp] theorem State.putVi_vl : (State.putVi v s).vl = s.vl := rfl
@[simp] theorem State.putVi_off : (State.putVi v s).off = s.off := rfl
@[simp] theorem State.putVi_len : (State.putVi v s).len = s.len := rfl
@[simp] theorem State.putVi_cnt : (State.putVi v s).cnt = s.cnt := rfl
@[simp] theorem State.putVi_eval : (State.putVi v s).eval = s.eval := rfl
@[simp] theorem State.putVi_elen : (State.putVi v s).elen = s.elen := rfl
@[simp] theorem State.putVi_px : (State.putVi v s).px = s.px := rfl
@[simp] theorem State.putVi_py : (State.putVi v s).py = s.py := rfl
@[simp] theorem State.putVi_pz : (State.putVi v s).pz = s.pz := rfl
@[simp] theorem State.putVi_pw : (State.putVi v s).pw = s.pw := rfl
@[simp] theorem State.putVi_cmd : (State.putVi v s).cmd = s.cmd := rfl
@[simp] theorem State.putVi_status : (State.putVi v s).status = s.status := rfl
@[simp] theorem State.putVi_buf : (State.putVi v s).buf = s.buf := rfl
@[simp] theorem State.putVi_pending : (State.putVi v s).pending = s.pending := rfl
@[simp] theorem State.putVi_freeCount : (State.putVi v s).freeCount = s.freeCount := rfl
@[simp] theorem State.putVi_vi : (State.putVi v s).vi = v := rfl

end

section
variable (v : BitVec 64) (s : State)

@[simp] theorem State.putVl_cfg : (State.putVl v s).cfg = s.cfg := rfl
@[simp] theorem State.putVl_vi : (State.putVl v s).vi = s.vi := rfl
@[simp] theorem State.putVl_off : (State.putVl v s).off = s.off := rfl
@[simp] theorem State.putVl_len : (State.putVl v s).len = s.len := rfl
@[simp] theorem State.putVl_cnt : (State.putVl v s).cnt = s.cnt := rfl
@[simp] theorem State.putVl_eval : (State.putVl v s).eval = s.eval := rfl
@[simp] theorem State.putVl_elen : (State.putVl v s).elen = s.elen := rfl
@[simp] theorem State.putVl_px : (State.putVl v s).px = s.px := rfl
@[simp] theorem State.putVl_py : (State.putVl v s).py = s.py := rfl
@[simp] theorem State.putVl_pz : (State.putVl v s).pz = s.pz := rfl
@[simp] theorem State.putVl_pw : (State.putVl v s).pw = s.pw := rfl
@[simp] theorem State.putVl_cmd : (State.putVl v s).cmd = s.cmd := rfl
@[simp] theorem State.putVl_status : (State.putVl v s).status = s.status := rfl
@[simp] theorem State.putVl_buf : (State.putVl v s).buf = s.buf := rfl
@[simp] theorem State.putVl_pending : (State.putVl v s).pending = s.pending := rfl
@[simp] theorem State.putVl_freeCount : (State.putVl v s).freeCount = s.freeCount := rfl
@[simp] theorem State.putVl_vl : (State.putVl v s).vl = v := rfl

end

section
variable (n : Nat) (bytes : List Byte) (s : State)

@[simp] theorem setBuf_cfg : (setBuf n bytes s).cfg = s.cfg := rfl
@[simp] theorem setBuf_vi : (setBuf n bytes s).vi = s.vi := rfl
@[simp] theorem setBuf_vl : (setBuf n bytes s).vl = s.vl := rfl
@[simp] theorem setBuf_off : (setBuf n bytes s).off = s.off := rfl
@[simp] theorem setBuf_cnt : (setBuf n bytes s).cnt = s.cnt := rfl
@[simp] theorem setBuf_eval : (setBuf n bytes s).eval = s.eval := rfl
@[simp] theorem setBuf_elen : (setBuf n bytes s).elen = s.elen := rfl
@[simp] theorem setBuf_px : (setBuf n bytes s).px = s.px := rfl
@[simp] theorem setBuf_py : (setBuf n bytes s).py = s.py := rfl
@[simp] theorem setBuf_pz : (setBuf n bytes s).pz = s.pz := rfl
@[simp] theorem setBuf_pw : (setBuf n bytes s).pw = s.pw := rfl
@[simp] theorem setBuf_cmd : (setBuf n bytes s).cmd = s.cmd := rfl
@[simp] theorem setBuf_status : (setBuf n bytes s).status = s.status := rfl
@[simp] theorem setBuf_pending : (setBuf n bytes s).pending = s.pending := rfl
@[simp] theorem setBuf_freeCount : (setBuf n bytes s).freeCount = s.freeCount := rfl
@[simp] theorem setBuf_len : (setBuf n bytes s).len = bvAW s.cfg n := rfl
@[simp] theorem setBuf_buf :
    (setBuf n bytes s).buf = Memory.writeList s.buf 0 (padded (bvAW s.cfg n) bytes) := rfl

end

section
variable (s : State)

@[simp] theorem resetBlock_cfg : (resetBlock s).cfg = s.cfg := rfl
@[simp] theorem resetBlock_buf : (resetBlock s).buf = s.buf := rfl
@[simp] theorem resetBlock_pending : (resetBlock s).pending = s.pending := rfl
@[simp] theorem resetBlock_freeCount : (resetBlock s).freeCount = s.freeCount := rfl
@[simp] theorem resetBlock_vi : (resetBlock s).vi = 0 := rfl
@[simp] theorem resetBlock_vl : (resetBlock s).vl = 0 := rfl
@[simp] theorem resetBlock_off : (resetBlock s).off = 0 := rfl
@[simp] theorem resetBlock_len : (resetBlock s).len = 0 := rfl
@[simp] theorem resetBlock_cnt : (resetBlock s).cnt = 0 := rfl
@[simp] theorem resetBlock_eval : (resetBlock s).eval = 0 := rfl
@[simp] theorem resetBlock_elen : (resetBlock s).elen = 0 := rfl
@[simp] theorem resetBlock_px : (resetBlock s).px = 0 := rfl
@[simp] theorem resetBlock_py : (resetBlock s).py = 0 := rfl
@[simp] theorem resetBlock_pz : (resetBlock s).pz = 0 := rfl
@[simp] theorem resetBlock_pw : (resetBlock s).pw = 0 := rfl
@[simp] theorem resetBlock_cmd : (resetBlock s).cmd = 0 := rfl
@[simp] theorem resetBlock_status : (resetBlock s).status = 0 := rfl

end

section
variable (s : State)

@[simp] theorem State.takeFreeOff_cfg : s.takeFreeOff.cfg = s.cfg := rfl
@[simp] theorem State.takeFreeOff_vi : s.takeFreeOff.vi = s.vi := rfl
@[simp] theorem State.takeFreeOff_vl : s.takeFreeOff.vl = s.vl := rfl
@[simp] theorem State.takeFreeOff_off : s.takeFreeOff.off = s.freeOff := rfl
@[simp] theorem State.takeFreeOff_len : s.takeFreeOff.len = s.len := rfl
@[simp] theorem State.takeFreeOff_cnt : s.takeFreeOff.cnt = s.cnt := rfl
@[simp] theorem State.takeFreeOff_eval : s.takeFreeOff.eval = s.eval := rfl
@[simp] theorem State.takeFreeOff_elen : s.takeFreeOff.elen = s.elen := rfl
@[simp] theorem State.takeFreeOff_px : s.takeFreeOff.px = s.px := rfl
@[simp] theorem State.takeFreeOff_py : s.takeFreeOff.py = s.py := rfl
@[simp] theorem State.takeFreeOff_pz : s.takeFreeOff.pz = s.pz := rfl
@[simp] theorem State.takeFreeOff_pw : s.takeFreeOff.pw = s.pw := rfl
@[simp] theorem State.takeFreeOff_cmd : s.takeFreeOff.cmd = s.cmd := rfl
@[simp] theorem State.takeFreeOff_status : s.takeFreeOff.status = s.status := rfl
@[simp] theorem State.takeFreeOff_buf : s.takeFreeOff.buf = s.buf := rfl
@[simp] theorem State.takeFreeOff_pending : s.takeFreeOff.pending = s.pending := rfl
@[simp] theorem State.takeFreeOff_freeCount : s.takeFreeOff.freeCount = s.freeCount + 1 := rfl

end

section
variable (f : CodecFault) (s : State)

@[simp] theorem raise_cfg : (raise f s).cfg = s.cfg := by cases f <;> rfl
@[simp] theorem raise_vi : (raise f s).vi = s.vi := by cases f <;> rfl
@[simp] theorem raise_vl : (raise f s).vl = s.vl := by cases f <;> rfl
@[simp] theorem raise_off : (raise f s).off = s.off := by cases f <;> rfl
@[simp] theorem raise_len : (raise f s).len = s.len := by cases f <;> rfl
@[simp] theorem raise_cnt : (raise f s).cnt = s.cnt := by cases f <;> rfl
@[simp] theorem raise_px : (raise f s).px = s.px := by cases f <;> rfl
@[simp] theorem raise_py : (raise f s).py = s.py := by cases f <;> rfl
@[simp] theorem raise_pz : (raise f s).pz = s.pz := by cases f <;> rfl
@[simp] theorem raise_pw : (raise f s).pw = s.pw := by cases f <;> rfl
@[simp] theorem raise_cmd : (raise f s).cmd = s.cmd := by cases f <;> rfl
@[simp] theorem raise_buf : (raise f s).buf = s.buf := by cases f <;> rfl
@[simp] theorem raise_pending : (raise f s).pending = s.pending := by cases f <;> rfl
@[simp] theorem raise_freeCount : (raise f s).freeCount = s.freeCount := by cases f <;> rfl
@[simp] theorem raise_status : (raise f s).status = (s.status.extractLsb' 2 1 ++ f.code) ||| 0b100#3 := by
  cases f <;> rfl

end

/-! The status word after a success and after each fault, as one number. -/

theorem State.succeed_status (s : State) : s.succeed.status = statusAfterSuccess s.status := by
  simp only [State.succeed, State.setCode_status, okCode, statusAfterSuccess]
  generalize s.status = v
  revert v
  decide

theorem State.succeed_eq (s : State) : s.succeed = { s with status := statusAfterSuccess s.status } := by
  rw [← State.succeed_status]
  rfl

theorem raise_sizeExceeded (acc : BitVec 64) (n : Nat) (s : State) :
    raise (.sizeExceeded acc n) s = { s with eval := acc, elen := n, status := 0b101#3 } := by
  have h : ∀ v : BitVec 3, (v.extractLsb' 2 1 ++ (1 : BitVec 2)) ||| 0b100#3 = 0b101#3 := by decide
  simp only [raise, recordPayload, State.setFseen, State.setCode, CodecFault.code]
  congr 1
  exact h _

theorem raise_bufferUnderrun (s : State) : raise .bufferUnderrun s = { s with status := 0b110#3 } := by
  have h : ∀ v : BitVec 3, (v.extractLsb' 2 1 ++ (2 : BitVec 2)) ||| 0b100#3 = 0b110#3 := by decide
  simp only [raise, recordPayload, State.setFseen, State.setCode, CodecFault.code]
  congr 1
  exact h _

theorem raise_illegalCommand (s : State) : raise .illegalCommand s = { s with status := 0b111#3 } := by
  have h : ∀ v : BitVec 3, (v.extractLsb' 2 1 ++ (3 : BitVec 2)) ||| 0b100#3 = 0b111#3 := by decide
  simp only [raise, recordPayload, State.setFseen, State.setCode, CodecFault.code]
  congr 1
  exact h _

/-- What a register write leaves alone, whichever register it is. -/
theorem writeReg_frame (r : WritableReg) (v : Int) (s : State) :
    (writeReg r v s).cfg = s.cfg ∧ (writeReg r v s).cnt = s.cnt ∧ (writeReg r v s).eval = s.eval ∧
      (writeReg r v s).elen = s.elen ∧ (writeReg r v s).cmd = s.cmd ∧ (writeReg r v s).status = s.status ∧
      (writeReg r v s).buf = s.buf ∧ (writeReg r v s).pending = s.pending ∧
      (writeReg r v s).freeCount = s.freeCount := by
  cases r <;> simp [writeReg]

end Sys2Proof.Machine
end

