-- ==== Sys2Proof/Laws/Encode.lean ====
section
/-! SUPPORT. Unit VE: the canonical string of a value group by group, and what a run of the encoder's passes does. -/

namespace Sys2Proof.Machine

/-! The closed forms of R60 and R83, group by group. -/

theorem bitLength_div {U : Nat} (h : 128 ≤ U) : bitLength U = bitLength (U / 128) + 7 := by
  have hd : U / 128 ≠ 0 := by omega
  have h0 : U ≠ 0 := by omega
  simp only [bitLength, if_neg h0, if_neg hd]
  have hl : 2 ^ (Nat.log2 (U / 128)) ≤ U / 128 := Nat.log2_self_le hd
  have hu : U / 128 < 2 ^ (Nat.log2 (U / 128) + 1) := Nat.lt_log2_self
  have : Nat.log2 U = Nat.log2 (U / 128) + 7 := by
    rw [Nat.log2_eq_iff h0]
    constructor
    · have : 2 ^ (Nat.log2 (U / 128) + 7) = 2 ^ Nat.log2 (U / 128) * 128 := by rw [pow_add]; norm_num
      omega
    · have : 2 ^ (Nat.log2 (U / 128) + 7 + 1) = 2 ^ (Nat.log2 (U / 128) + 1) * 128 := by
        rw [show Nat.log2 (U / 128) + 7 + 1 = Nat.log2 (U / 128) + 1 + 7 by omega, pow_add _ _ 7]; norm_num
      omega
  omega

theorem encLength_small {U : Nat} (h : U < 128) : encLength U = 1 := by
  have : bitLength U ≤ 7 := by
    by_cases h0 : U = 0
    · simp [bitLength, h0]
    · have : Nat.log2 U < 7 := (Nat.log2_lt h0).2 (by omega)
      simp only [bitLength, if_neg h0]
      omega
  simp only [encLength]
  omega

theorem encLength_big {U : Nat} (h : 128 ≤ U) : encLength U = encLength (U / 128) + 1 := by
  have h1 : bitLength (U / 128) ≠ 0 := by
    have : U / 128 ≠ 0 := by omega
    simp [bitLength, this]
  simp only [encLength, bitLength_div h]
  omega

theorem encLength_pos (U : Nat) : 1 ≤ encLength U := Nat.le_max_left _ _

/-- `n` groups hold a value below `2^(7n)`, so its string has at most `n` bytes. -/
theorem encLength_le {U n : Nat} (hn : 1 ≤ n) (h : U < 2 ^ (7 * n)) : encLength U ≤ n := by
  induction n generalizing U with
  | zero => omega
  | succ n ih =>
    by_cases hs : U < 128
    · rw [encLength_small hs]; omega
    · have hb : 128 ≤ U := by omega
      rw [encLength_big hb]
      have hp : 2 ^ (7 * (n + 1)) = 2 ^ (7 * n) * 128 := by rw [Nat.mul_add, pow_add]; norm_num
      have hn' : 1 ≤ n := by
        rcases Nat.eq_zero_or_pos n with h0 | h0
        · subst h0; simp at h; omega
        · exact h0
      have := ih hn' (U := U / 128) (by omega)
      omega

/-- The string's groups hold the value (R60). -/
theorem lt_pow_encLength (U : Nat) : U < 2 ^ (7 * encLength U) := by
  induction U using Nat.strongRecOn with
  | ind U ih =>
    by_cases hs : U < 128
    · rw [encLength_small hs]; simpa using hs
    · have hb : 128 ≤ U := by omega
      have := ih (U / 128) (by omega)
      rw [encLength_big hb]
      have hp : 2 ^ (7 * (encLength (U / 128) + 1)) = 2 ^ (7 * encLength (U / 128)) * 128 := by
        rw [Nat.mul_add, pow_add]; norm_num
      omega

theorem encByte_succ {U : Nat} (h : 128 ≤ U) (k : Nat) : encByte U (k + 1) = encByte (U / 128) k := by
  simp only [encByte, encLength_big h]
  congr 2
  · simp
  · rw [Nat.shiftRight_eq_div_pow, Nat.shiftRight_eq_div_pow, Nat.div_div_eq_div_mul]
    congr 1
    rw [show 7 * (k + 1) = 7 + 7 * k by omega, pow_add]; norm_num

@[simp] theorem encString_length (U : Nat) : (encString U).length = encLength U := by simp [encString]

theorem encString_small {U : Nat} (h : U < 128) : encString U = [encByte U 0] := by
  simp [encString, encLength_small h]

theorem encString_big {U : Nat} (h : 128 ≤ U) : encString U = encByte U 0 :: encString (U / 128) := by
  simp only [encString, encLength_big h, List.range_succ_eq_map, List.map_cons, List.map_map]
  congr 1
  apply List.map_congr_left
  intro k _
  simp [encByte_succ h]

theorem groupByte_eq {w : Nat} (c : Bool) (u : BitVec w) :
    groupByte c u = BitVec.ofBool c ++ BitVec.ofNat 7 u.toNat := by
  simp only [groupByte]
  congr 1

theorem groupByte_final {w : Nat} {u : BitVec w} (h : u.toNat < 128) : groupByte false u = encByte u.toNat 0 := by
  simp [groupByte_eq, encByte, encLength_small h]

theorem groupByte_more {w : Nat} {u : BitVec w} (h : 128 ≤ u.toNat) : groupByte true u = encByte u.toNat 0 := by
  have := encLength_pos (u.toNat / 128)
  have h2 : 0 + 1 < encLength u.toNat := by rw [encLength_big h]; omega
  simp [groupByte_eq, encByte, h2]

/-! Buffer accesses. -/

theorem State.memWrite_of_lt {s : State} {a : Nat} (h : a < s.len) (b : Byte) :
    s.memWrite a b = some { s with buf := Memory.write s.buf a b } := if_pos h

theorem State.memWrite_of_le {s : State} {a : Nat} (h : s.len ≤ a) (b : Byte) : s.memWrite a b = none :=
  if_neg (by omega)

theorem vePass_final {w : Nat} {r : VeRegs w} {s : State} (hu : r.u.toNat < 128) (h : s.off + r.i.toNat < s.len) :
    vePass r s = .finished { s with
      buf := Memory.write s.buf (s.off + r.i.toNat) (encByte r.u.toNat 0)
      cnt := r.i + 1
      status := statusAfterSuccess s.status } := by
  simp only [vePass, if_neg (show ¬ 128 ≤ r.u.toNat by omega), State.accessIndex, State.memWrite_of_lt h,
    groupByte_final hu, State.succeed_eq]

theorem vePass_more {w : Nat} {r : VeRegs w} {s : State} (hu : 128 ≤ r.u.toNat) (h : s.off + r.i.toNat < s.len) :
    vePass r s = .more { u := r.u >>> 7, i := r.i + 1, b := encByte r.u.toNat 0 }
      { s with buf := Memory.write s.buf (s.off + r.i.toNat) (encByte r.u.toNat 0) } := by
  simp only [vePass, if_pos hu, State.accessIndex, State.memWrite_of_lt h, groupByte_more hu]

theorem vePass_underrun {w : Nat} {r : VeRegs w} {s : State} (h : s.len ≤ s.off + r.i.toNat) :
    vePass r s = .finished { s with status := 0b110#3 } := by
  simp only [vePass, State.accessIndex, State.memWrite_of_le h, raise_bufferUnderrun, ite_self]

theorem incr_toNat {i : BitVec 4} (h : i.toNat < 15) : (i + 1).toNat = i.toNat + 1 := by
  simp [BitVec.toNat_add]; omega

/-- Where passes reach the end of the command, a run of at least as many passes comes to the same state. -/
theorem veRun_of_vePasses {w : Nat} {n k : Nat} {r : VeRegs w} {s t : State} (h : vePasses n r s = .finished t) :
    veRun (n + k) r s = t := by
  induction n generalizing r s with
  | zero => cases h
  | succ n ih =>
    rw [show n + 1 + k = n + k + 1 by omega, veRun]
    rw [vePasses] at h
    cases hp : vePass r s with
    | more r' u => rw [hp] at h; exact ih h
    | finished u => rw [hp] at h; cases h; rfl

/-- Everything a run of the encoder's passes does, from a pass that has written `r.i` bytes and has the value `r.u`
left: the rest of the canonical string if it fits below `u(LEN)`, else as much of it as fits and BufferUnderrun. -/
theorem veRun_eq {w : Nat} (n : Nat) (r : VeRegs w) (s : State) (hn : 1 ≤ n) (hu : r.u.toNat < 2 ^ (7 * n))
    (hi : r.i.toNat + n ≤ 15) :
    veRun n r s =
      if s.off + r.i.toNat + encLength r.u.toNat ≤ s.len then
        { s with
          buf := Memory.writeList s.buf (s.off + r.i.toNat) (encString r.u.toNat)
          cnt := BitVec.ofNat 4 (r.i.toNat + encLength r.u.toNat)
          status := statusAfterSuccess s.status }
      else
        { s with
          buf := Memory.writeList s.buf (s.off + r.i.toNat)
            ((encString r.u.toNat).take (s.len - (s.off + r.i.toNat)))
          status := 0b110#3 } := by
  induction n generalizing r s with
  | zero => omega
  | succ n ih =>
    by_cases hfit : s.off + r.i.toNat < s.len
    · by_cases hs : r.u.toNat < 128
      · have he := encLength_small hs
        have hc : r.i + 1 = BitVec.ofNat 4 (r.i.toNat + 1) := by
          apply BitVec.eq_of_toNat_eq
          rw [incr_toNat (by omega)]
          simp; omega
        rw [veRun, vePass_final hs hfit, he, if_pos (by omega)]
        simpa [encString_small hs] using hc
      · have hb : 128 ≤ r.u.toNat := by omega
        have hsh : (r.u >>> 7).toNat = r.u.toNat / 128 := by
          simp [BitVec.toNat_ushiftRight, Nat.shiftRight_eq_div_pow]
        have hi1 := incr_toNat (i := r.i) (by omega)
        have hp : 2 ^ (7 * (n + 1)) = 2 ^ (7 * n) * 128 := by rw [Nat.mul_add, pow_add]; norm_num
        have hn1 : 1 ≤ n := by
          rcases Nat.eq_zero_or_pos n with h0 | h0
          · subst h0; simp at hu; omega
          · exact h0
        rw [veRun, vePass_more hb hfit]
        simp only
        rw [ih _ _ hn1 (by simp only [hsh]; omega) (by simp only [hi1]; omega)]
        simp only [hsh, hi1, encLength_big hb, encString_big hb]
        have hk : s.len - (s.off + r.i.toNat) = (s.len - (s.off + (r.i.toNat + 1))) + 1 := by omega
        rw [hk, List.take_succ_cons]
        simp only [Memory.writeList_cons, Nat.add_assoc]
        congr 1
        all_goals simp [Nat.add_comm 1]
    · have hle : s.len ≤ s.off + r.i.toNat := by omega
      have := encLength_pos r.u.toNat
      rw [veRun, vePass_underrun hle, if_neg (by omega)]
      simp [show s.len - (s.off + r.i.toNat) = 0 by omega]

/-- Everything an encode does (R89, R92), for the two widths of the block. -/
theorem encodeWith_eq {w : Nat} (hw : 1 ≤ maxb w) (hw' : maxb w ≤ 15) (v : BitVec w) (s : State) :
    encodeWith v s =
      if s.off + encLength v.toNat ≤ s.len then
        { s with
          buf := Memory.writeList s.buf s.off (encString v.toNat)
          cnt := BitVec.ofNat 4 (encLength v.toNat)
          status := statusAfterSuccess s.status }
      else
        { s with
          buf := Memory.writeList s.buf s.off ((encString v.toNat).take (s.len - s.off))
          status := 0b110#3 } := by
  have hlt : v.toNat < 2 ^ (7 * maxb w) :=
    lt_of_lt_of_le v.isLt (Nat.pow_le_pow_right (by omega) (by simp only [maxb]; omega))
  have := veRun_eq (maxb w) (veStart v) s hw hlt (by simpa [veStart] using hw')
  simpa [encodeWith, veStart] using this

end Sys2Proof.Machine
end

