-- ==== Sys2Proof/Laws/Position.lean ====
section
/-! SUPPORT. Units PE and PD: the packed word as a concatenation of fields, and the two readings of a decoded field
(43_position_decode.md R127). -/

namespace Sys2Proof.Machine

/-! Packing. -/

/-- Masking with `2^n - 1` keeps the low `n` bits (R117). -/
theorem toNat_and_lowMask (n N : Nat) (v m : BitVec N) (hm : m.toNat = 2 ^ n - 1) :
    (v &&& m).toNat = v.toNat % 2 ^ n := by
  rw [BitVec.toNat_and, hm, Nat.and_two_pow_sub_one_eq_mod]

theorem and_mask26 (v : BitVec 32) : v &&& 0x03FFFFFF#32 = (v.extractLsb' 0 26).setWidth 32 := by
  apply BitVec.eq_of_toNat_eq
  rw [toNat_and_lowMask 26 32 _ _ rfl]
  simp
  omega

theorem and_mask12 (v : BitVec 32) : v &&& 0x00000FFF#32 = (v.extractLsb' 0 12).setWidth 32 := by
  apply BitVec.eq_of_toNat_eq
  rw [toNat_and_lowMask 12 32 _ _ rfl]
  simp
  omega

/-- The bits of the word `{a, b, c}`. -/
theorem fields_getLsbD (a b : BitVec 26) (c : BitVec 12) (i : Nat) :
    BitVec.getLsbD (a ++ (b ++ c) : BitVec 64) i =
      if i < 38 then (if i < 12 then c.getLsbD i else b.getLsbD (i - 12)) else a.getLsbD (i - 38) := by
  have h1 : BitVec.getLsbD (a ++ (b ++ c) : BitVec 64) i = _ :=
    BitVec.getLsbD_append (x := a) (y := b ++ c) (i := i)
  rw [h1, BitVec.getLsbD_append]

/-- The shifted fields are disjoint, so OR and concatenation give one word (R118). -/
theorem fields_or_eq_append (a b : BitVec 26) (c : BitVec 12) :
    ((a.setWidth 32).setWidth 64 <<< 38) ||| ((b.setWidth 32).setWidth 64 <<< 12) ||| (c.setWidth 32).setWidth 64 =
      a ++ (b ++ c) := by
  apply BitVec.eq_of_getLsbD_eq
  intro i hi
  rw [fields_getLsbD]
  by_cases h1 : i < 12
  · have h2 : i < 38 := by omega
    simp [h1, h2]
    omega
  · have hc : c.getLsbD i = false := BitVec.getLsbD_of_ge _ _ (by omega)
    by_cases h2 : i < 38
    · simp [h1, h2, hc, hi]
    · have hb : b.getLsbD (i - 12) = false := BitVec.getLsbD_of_ge _ _ (by omega)
      simp [h1, h2, hc, hb, hi]

/-- The packed word is `{x[25:0], z[25:0], y[11:0]}` (R115). -/
theorem posPack_eq (x y z : BitVec 32) :
    posPack x y z = x.extractLsb' 0 26 ++ (z.extractLsb' 0 26 ++ y.extractLsb' 0 12) := by
  simp only [posPack, and_mask26, and_mask12]
  exact fields_or_eq_append _ _ _

/-! Extraction. -/

theorem rawX_toNat (w : BitVec 64) : (rawX w).toNat = (w.extractLsb' 38 26).toNat := by
  rw [rawX, toNat_and_lowMask 26 64 _ _ rfl]
  simp

theorem rawZ_toNat (w : BitVec 64) : (rawZ w).toNat = (w.extractLsb' 12 26).toNat := by
  rw [rawZ, toNat_and_lowMask 26 64 _ _ rfl]
  simp

theorem rawY_toNat (w : BitVec 64) : (rawY w).toNat = (w.extractLsb' 0 12).toNat := by
  rw [rawY, toNat_and_lowMask 12 64 _ _ rfl]
  simp

/-- The subtract form of R126 is the two's-complement reading of the field (R127). -/
theorem signedField_eq_toInt {n : Nat} (hn : 1 ≤ n) (f : BitVec n) : signedField n f.toNat = f.toInt := by
  obtain ⟨m, rfl⟩ : ∃ m, n = m + 1 := ⟨n - 1, by omega⟩
  have hp : 2 ^ (m + 1) = 2 * 2 ^ m := by rw [pow_succ]; omega
  simp only [signedField, BitVec.toInt, Nat.add_sub_cancel]
  by_cases h : 2 ^ m ≤ f.toNat
  · rw [if_pos h, if_neg (by omega)]
    push_cast
    rfl
  · rw [if_neg h, if_pos (by omega)]

theorem posX_eq (w : BitVec 64) : posX w = (w.extractLsb' 38 26).signExtend 32 := by
  rw [posX, rawX_toNat, signedField_eq_toInt (by omega)]
  rfl

theorem posY_eq (w : BitVec 64) : posY w = (w.extractLsb' 0 12).signExtend 32 := by
  rw [posY, rawY_toNat, signedField_eq_toInt (by omega)]
  rfl

theorem posZ_eq (w : BitVec 64) : posZ w = (w.extractLsb' 12 26).signExtend 32 := by
  rw [posZ, rawZ_toNat, signedField_eq_toInt (by omega)]
  rfl

/-! The fields of a concatenation. -/

theorem fields_x (a b : BitVec 26) (c : BitVec 12) :
    BitVec.extractLsb' 38 26 (a ++ (b ++ c) : BitVec 64) = a := by
  apply BitVec.eq_of_getLsbD_eq
  intro i hi
  have h1 : ¬ 38 + i < 38 := by omega
  have h2 : 38 + i - 38 = i := by omega
  rw [BitVec.getLsbD_extractLsb', fields_getLsbD, if_neg h1, h2]
  simp [hi]

theorem fields_z (a b : BitVec 26) (c : BitVec 12) :
    BitVec.extractLsb' 12 26 (a ++ (b ++ c) : BitVec 64) = b := by
  apply BitVec.eq_of_getLsbD_eq
  intro i hi
  have h1 : 12 + i < 38 := by omega
  have h3 : ¬ 12 + i < 12 := by omega
  have h2 : 12 + i - 12 = i := by omega
  rw [BitVec.getLsbD_extractLsb', fields_getLsbD, if_pos h1, if_neg h3, h2]
  simp [hi]

theorem fields_y (a b : BitVec 26) (c : BitVec 12) :
    BitVec.extractLsb' 0 12 (a ++ (b ++ c) : BitVec 64) = c := by
  apply BitVec.eq_of_getLsbD_eq
  intro i hi
  have h1 : 0 + i < 38 := by omega
  have h3 : 0 + i < 12 := by omega
  rw [BitVec.getLsbD_extractLsb', fields_getLsbD, if_pos h1, if_pos h3]
  simp [hi]

/-- A word is the concatenation of its three fields (R68). -/
theorem fields_self (w : BitVec 64) :
    (w.extractLsb' 38 26 ++ (w.extractLsb' 12 26 ++ w.extractLsb' 0 12) : BitVec 64) = w := by
  apply BitVec.eq_of_getLsbD_eq
  intro i hi
  rw [fields_getLsbD]
  by_cases h1 : i < 12
  · have h2 : i < 38 := by omega
    simp [h1, h2]
  · by_cases h2 : i < 38
    · have h3 : i - 12 < 26 := by omega
      have h4 : 12 + (i - 12) = i := by omega
      simp [h1, h2, h3, h4]
    · have h3 : i - 38 < 26 := by omega
      have h4 : 38 + (i - 38) = i := by omega
      simp [h2, h3, h4]

end Sys2Proof.Machine
end

