-- ==== Sys2Proof/Laws/VarintDecode.lean ====
section
/-! SUPPORT. Unit VD: what each pass of the decoder does, and what a run of passes does. -/

namespace Sys2Proof.Machine

theorem State.memRead_of_lt {s : State} {a : Nat} (h : a < s.len) : s.memRead a = some (Memory.read s.buf a) :=
  if_pos h

theorem State.memRead_of_le {s : State} {a : Nat} (h : s.len ≤ a) : s.memRead a = none := if_neg (by omega)

@[simp] theorem State.stringValue_zero (w : Nat) (s : State) : s.stringValue w 0 = 0 := rfl

/-- One more byte: its payload is ORed in at its group (R59, R99). -/
theorem State.stringValue_succ (w : Nat) (s : State) (n : Nat) :
    s.stringValue w (n + 1) = accumulate (s.stringValue w n) (s.stringByte n) (7 * n) := by
  have hor : ∀ a b : Nat, BitVec.ofNat w (a ||| b) = BitVec.ofNat w a ||| BitVec.ofNat w b := by
    intro a b
    apply BitVec.eq_of_toNat_eq
    simp
  have hsh : ∀ (p : BitVec 7) (k : Nat), BitVec.ofNat w (p.toNat <<< k) = p.setWidth w <<< k := by
    intro p k
    apply BitVec.eq_of_toNat_eq
    simp [BitVec.toNat_shiftLeft, Nat.shiftLeft_eq]
  simp only [State.stringValue, List.range_succ, List.foldl_append, List.foldl_cons, List.foldl_nil, hor, hsh,
    accumulate]

/-- The working registers after `n` bytes with their continuation bits set have been read. -/
def vdAfter (w : Nat) (s : State) (n : Nat) (b : Byte) : VdRegs w where
  acc := s.stringValue w n
  pos := BitVec.ofNat 7 (7 * n)
  i := BitVec.ofNat 4 n
  b := b

theorem vdStart_eq (w : Nat) (s : State) : vdStart w = vdAfter w s 0 0 := rfl

theorem vdPass_underrun {w : Nat} (put : BitVec w → State → State) {s : State} {n : Nat} {b : Byte} (hn : n < 16)
    (h : s.len ≤ s.accessIndex n) : vdPass put (vdAfter w s n b) s = .finished { s with status := 0b110#3 } := by
  have hi : (BitVec.ofNat 4 n).toNat = n := by simp; omega
  simp only [vdPass, vdAfter, hi, State.memRead_of_le h, raise_bufferUnderrun]

theorem vdPass_read {w : Nat} (put : BitVec w → State → State) {s : State} {n : Nat} {b : Byte} (hn : n < 15)
    (h : s.accessIndex n < s.len) :
    vdPass put (vdAfter w s n b) s =
      if contBit (s.stringByte n) then
        if w ≤ 7 * (n + 1) then
          .finished { s with
            eval := (s.stringValue w (n + 1)).setWidth 64
            elen := s.len
            status := 0b101#3 }
        else .more (vdAfter w s (n + 1) (s.stringByte n)) s
      else .finished ({ put (s.stringValue w (n + 1)) s with cnt := BitVec.ofNat 4 (n + 1) }).succeed := by
  have hi : (BitVec.ofNat 4 n).toNat = n := by simp; omega
  have hp : (BitVec.ofNat 7 (7 * n)).toNat = 7 * n := by simp; omega
  have hi1 : BitVec.ofNat 4 n + 1 = BitVec.ofNat 4 (n + 1) := by
    apply BitVec.eq_of_toNat_eq
    simp [BitVec.toNat_add]
  have hp1 : BitVec.ofNat 7 (7 * n) + 7 = BitVec.ofNat 7 (7 * (n + 1)) := by
    apply BitVec.eq_of_toNat_eq
    simp [BitVec.toNat_add, Nat.mul_add]
  have hp2 : (BitVec.ofNat 7 (7 * (n + 1))).toNat = 7 * (n + 1) := by simp; omega
  simp only [vdPass, vdAfter, hi, hp, hi1, hp1, hp2, State.memRead_of_lt h, State.stringValue_succ,
    raise_sizeExceeded]
  rfl

/-- Where passes reach the end of the command, a run of at least as many passes comes to the same state. -/
theorem vdRun_of_vdPasses {w : Nat} (put : BitVec w → State → State) {n k : Nat} {r : VdRegs w} {s t : State}
    (h : vdPasses put n r s = .finished t) : vdRun put (n + k) r s = t := by
  induction n generalizing r s with
  | zero => cases h
  | succ n ih =>
    rw [show n + 1 + k = n + k + 1 by omega, vdRun]
    rw [vdPasses] at h
    cases hp : vdPass put r s with
    | more r' u => rw [hp] at h; exact ih h
    | finished u => rw [hp] at h; cases h; rfl

/-- A string whose byte `n` is the first with a clear continuation bit, all of it below `u(LEN)` (R103). -/
theorem vdRun_terminated {w : Nat} (put : BitVec w → State → State) {s : State} {n fuel m : Nat} {b : Byte}
    (hn : n < 15) (hm : m ≤ n) (hfuel : n < m + fuel) (hw : 7 * n < w)
    (hcont : ∀ k, k < n → contBit (s.stringByte k) = true) (hend : contBit (s.stringByte n) = false)
    (hin : s.accessIndex n < s.len) :
    vdRun put fuel (vdAfter w s m b) s =
      ({ put (s.stringValue w (n + 1)) s with cnt := BitVec.ofNat 4 (n + 1) }).succeed := by
  induction fuel generalizing m b with
  | zero => omega
  | succ fuel ih =>
    have hlt : s.accessIndex m < s.len := by simp only [State.accessIndex] at hin ⊢; omega
    rw [vdRun, vdPass_read put (by omega) hlt]
    rcases Nat.lt_or_ge m n with hmn | hmn
    · rw [if_pos (hcont m hmn), if_neg (show ¬ w ≤ 7 * (m + 1) by omega)]
      exact ih (by omega) (by omega)
    · have : m = n := by omega
      subst this
      simp [hend]

/-- A string whose first `n` bytes all have the continuation bit set, `n` the first number of groups to fill `W`
bits (R104). -/
theorem vdRun_sizeExceeded {w : Nat} (put : BitVec w → State → State) {s : State} {n fuel m : Nat} {b : Byte}
    (hn : n < 15) (hm : m < n) (hfuel : n ≤ m + fuel) (hw : w ≤ 7 * n) (hw' : 7 * n < w + 7)
    (hcont : ∀ k, k < n → contBit (s.stringByte k) = true) (hin : ∀ k, k < n → s.accessIndex k < s.len) :
    vdRun put fuel (vdAfter w s m b) s =
      { s with eval := (s.stringValue w n).setWidth 64, elen := s.len, status := 0b101#3 } := by
  induction fuel generalizing m b with
  | zero => omega
  | succ fuel ih =>
    rw [vdRun, vdPass_read put (by omega) (hin m hm), if_pos (hcont m hm)]
    rcases Nat.lt_or_ge (m + 1) n with hmn | hmn
    · rw [if_neg (show ¬ w ≤ 7 * (m + 1) by omega)]
      exact ih hmn (by omega)
    · have : n = m + 1 := by omega
      subst this
      rw [if_pos hw]

/-- A string that reaches the end of the buffer after `n` bytes with the continuation bit set, too few to fill `W`
bits (R105). -/
theorem vdRun_underrun {w : Nat} (put : BitVec w → State → State) {s : State} {n fuel m : Nat} {b : Byte}
    (hn : n < 15) (hm : m ≤ n) (hfuel : n < m + fuel) (hw : 7 * n < w)
    (hcont : ∀ k, k < n → contBit (s.stringByte k) = true) (hin : ∀ k, k < n → s.accessIndex k < s.len)
    (hout : s.len ≤ s.accessIndex n) :
    vdRun put fuel (vdAfter w s m b) s = { s with status := 0b110#3 } := by
  induction fuel generalizing m b with
  | zero => omega
  | succ fuel ih =>
    rcases Nat.lt_or_ge m n with hmn | hmn
    · rw [vdRun, vdPass_read put (by omega) (hin m hmn), if_pos (hcont m hmn),
        if_neg (show ¬ w ≤ 7 * (m + 1) by omega)]
      exact ih (by omega) (by omega)
    · have : m = n := by omega
      subst this
      rw [vdRun, vdPass_underrun put (by omega) hout]

/-! A whole decode, at either width of the block. -/

theorem decodeWith_terminated {w : Nat} (put : BitVec w → State → State) {s : State} {n : Nat} (hm : maxb w ≤ 15)
    (hn : n < maxb w) (hcont : ∀ k, k < n → contBit (s.stringByte k) = true)
    (hend : contBit (s.stringByte n) = false) (hin : s.accessIndex n < s.len) :
    decodeWith put s = ({ put (s.stringValue w (n + 1)) s with cnt := BitVec.ofNat 4 (n + 1) }).succeed := by
  have hw : 7 * n < w := by simp only [maxb] at hn; omega
  exact vdRun_terminated put (by omega) (Nat.zero_le n) (by omega) hw hcont hend hin

theorem decodeWith_sizeExceeded {w : Nat} (put : BitVec w → State → State) {s : State} (hm : maxb w < 15)
    (hp : 0 < maxb w) (hcont : ∀ k, k < maxb w → contBit (s.stringByte k) = true)
    (hin : ∀ k, k < maxb w → s.accessIndex k < s.len) :
    decodeWith put s =
      { s with eval := (s.stringValue w (maxb w)).setWidth 64, elen := s.len, status := 0b101#3 } :=
  vdRun_sizeExceeded put hm hp (by omega) (by simp only [maxb]; omega) (by simp only [maxb]; omega) hcont hin

theorem decodeWith_underrun {w : Nat} (put : BitVec w → State → State) {s : State} {n : Nat} (hm : maxb w ≤ 15)
    (hn : n < maxb w) (hcont : ∀ k, k < n → contBit (s.stringByte k) = true)
    (hin : ∀ k, k < n → s.accessIndex k < s.len) (hout : s.len ≤ s.accessIndex n) :
    decodeWith put s = { s with status := 0b110#3 } := by
  have hw : 7 * n < w := by simp only [maxb] at hn; omega
  exact vdRun_underrun put (by omega) (Nat.zero_le n) (by omega) hw hcont hin hout

/-- The three outcomes of a decode, whatever the buffer holds (R106). -/
theorem decode_cases (s : State) (M : Nat) :
    (∃ n, n < M ∧ (∀ k, k < n → contBit (s.stringByte k) = true) ∧ contBit (s.stringByte n) = false ∧
        s.accessIndex n < s.len) ∨
      ((∀ k, k < M → contBit (s.stringByte k) = true) ∧ ∀ k, k < M → s.accessIndex k < s.len) ∨
      (∃ n, n < M ∧ (∀ k, k < n → contBit (s.stringByte k) = true) ∧ (∀ k, k < n → s.accessIndex k < s.len) ∧
        s.len ≤ s.accessIndex n) := by
  induction M with
  | zero => exact .inr (.inl ⟨fun k h => by omega, fun k h => by omega⟩)
  | succ M ih =>
    rcases ih with ⟨n, hn, h⟩ | ⟨hc, hi⟩ | ⟨n, hn, h⟩
    · exact .inl ⟨n, by omega, h⟩
    · by_cases hlt : s.accessIndex M < s.len
      · cases hb : contBit (s.stringByte M) with
        | false => exact .inl ⟨M, by omega, hc, hb, hlt⟩
        | true =>
          refine .inr (.inl ⟨fun k hk => ?_, fun k hk => ?_⟩)
          · rcases Nat.lt_or_ge k M with h | h
            · exact hc k h
            · rwa [show k = M by omega]
          · rcases Nat.lt_or_ge k M with h | h
            · exact hi k h
            · rwa [show k = M by omega]
      · exact .inr (.inr ⟨M, by omega, hc, hi, by omega⟩)
    · exact .inr (.inr ⟨n, by omega, h⟩)

/-- Everything a DECVI-like decode can do: one of the three outcomes of R106, with the whole next state. -/
theorem decodeWith_cases {w : Nat} (put : BitVec w → State → State) (s : State) (hm : maxb w < 15)
    (hp : 0 < maxb w) :
    (∃ n, n < maxb w ∧ (∀ k, k < n → contBit (s.stringByte k) = true) ∧ contBit (s.stringByte n) = false ∧
        s.accessIndex n < s.len ∧
        decodeWith put s = ({ put (s.stringValue w (n + 1)) s with cnt := BitVec.ofNat 4 (n + 1) }).succeed) ∨
      ((∀ k, k < maxb w → contBit (s.stringByte k) = true) ∧ (∀ k, k < maxb w → s.accessIndex k < s.len) ∧
        decodeWith put s =
          { s with eval := (s.stringValue w (maxb w)).setWidth 64, elen := s.len, status := 0b101#3 }) ∨
      (∃ n, n < maxb w ∧ (∀ k, k < n → contBit (s.stringByte k) = true) ∧
        (∀ k, k < n → s.accessIndex k < s.len) ∧ s.len ≤ s.accessIndex n ∧
        decodeWith put s = { s with status := 0b110#3 }) := by
  rcases decode_cases s (maxb w) with ⟨n, hn, hc, he, hi⟩ | ⟨hc, hi⟩ | ⟨n, hn, hc, hi, ho⟩
  · exact .inl ⟨n, hn, hc, he, hi, decodeWith_terminated put (by omega) hn hc he hi⟩
  · exact .inr (.inl ⟨hc, hi, decodeWith_sizeExceeded put hm hp hc hi⟩)
  · exact .inr (.inr ⟨n, hn, hc, hi, ho, decodeWith_underrun put (by omega) hn hc hi ho⟩)

end Sys2Proof.Machine
end

