-- ==== Sys2Proof/Laws/Exec.lean ====
section
/-! SUPPORT. What each command does, said once, with its whole next state: the lemmas to cite instead of unfolding
`exec`. -/

namespace Sys2Proof.Machine

/-! Small facts. -/

/-- The `CODE` of the status word after a success. -/
theorem code_after_success (v : BitVec 3) : (v &&& 0b100#3).extractLsb' 0 2 = 0 := by revert v; decide

/-- The `FSEEN` of the status word after a success. -/
theorem fseen_after_success (v : BitVec 3) : (v &&& 0b100#3).getLsbD 2 = v.getLsbD 2 := by revert v; decide

theorem ofNat4_toNat {n : Nat} (h : n ≤ 15) : (BitVec.ofNat 4 n).toNat = n := by simp; omega

theorem encLength_le_five (v : BitVec 32) : encLength v.toNat ≤ 5 :=
  encLength_le (by decide) (lt_of_lt_of_le v.isLt (by decide))

theorem encLength_le_ten (v : BitVec 64) : encLength v.toNat ≤ 10 :=
  encLength_le (by decide) (lt_of_lt_of_le v.isLt (by decide))

theorem contBit_encByte (U k : Nat) : contBit (encByte U k) = decide (k + 1 < encLength U) := by
  have : ∀ (c : Bool) (p : BitVec 7), contBit (BitVec.ofBool c ++ p) = c := by decide
  exact this _ _

theorem segmentBits_encByte (U k : Nat) : segmentBits (encByte U k) = BitVec.ofNat 7 (U >>> (7 * k)) := by
  have : ∀ (c : Bool) (p : BitVec 7), segmentBits (BitVec.ofBool c ++ p) = p := by decide
  exact this _ _

/-- The first `n` indices at `OFF` are a range. -/
theorem State.outside_iff (s : State) (n a : Nat) : s.outside n a ↔ a < s.off ∨ s.off + n ≤ a := by
  simp only [State.outside, State.accessIndex]
  constructor
  · intro h
    by_contra hc
    exact h (a - s.off) (by omega) (by omega)
  · intro h k hk
    omega

/-- The value depends on the bytes it is made of alone. -/
theorem State.stringValue_congr {w : Nat} {s s' : State} {n : Nat}
    (h : ∀ k, k < n → s'.stringByte k = s.stringByte k) : s'.stringValue w n = s.stringValue w n := by
  induction n with
  | zero => rfl
  | succ n ih =>
    rw [State.stringValue_succ, State.stringValue_succ, ih (fun k hk => h k (by omega)), h n (by omega)]

/-! Unit VE. -/

/-- A canonical string that has been written reads back byte by byte. -/
theorem Memory.read_encString {m : Memory} (hw : Memory.wf m = true) (a U k : Nat) (h : k < encLength U) :
    Memory.read (Memory.writeList m a (encString U)) (a + k) = encByte U k := by
  rw [Memory.read_writeList_at hw _ _ (by simpa using h)]
  simp [encString]

/-- So does what has been written of one that did not fit. -/
theorem Memory.read_encString_take {m : Memory} (hw : Memory.wf m = true) (a U k n : Nat) (h : k < encLength U)
    (hn : k < n) : Memory.read (Memory.writeList m a ((encString U).take n)) (a + k) = encByte U k := by
  rw [Memory.read_writeList_at hw _ _ (by simp; omega)]
  simp [encString]

/-- Everything ENCVI does (R89, R92). -/
theorem encvi_cases (s : State) :
    (s.off + encLength s.vi.toNat ≤ s.len ∧ exec .encvi s = .next { s with
      buf := Memory.writeList s.buf s.off (encString s.vi.toNat)
      cnt := BitVec.ofNat 4 (encLength s.vi.toNat)
      status := s.status &&& 0b100#3 }) ∨
    (s.len < s.off + encLength s.vi.toNat ∧ exec .encvi s = .next { s with
      buf := Memory.writeList s.buf s.off ((encString s.vi.toNat).take (s.len - s.off))
      status := 0b110#3 }) := by
  have e := encodeWith_eq (by decide) (by decide) s.vi s
  by_cases h : s.off + encLength s.vi.toNat ≤ s.len
  · rw [if_pos h] at e
    exact .inl ⟨h, congrArg Host.Outcome.next e⟩
  · rw [if_neg h] at e
    exact .inr ⟨by omega, congrArg Host.Outcome.next e⟩

/-- Everything ENCVL does (R89, R92). -/
theorem encvl_cases (s : State) :
    (s.off + encLength s.vl.toNat ≤ s.len ∧ exec .encvl s = .next { s with
      buf := Memory.writeList s.buf s.off (encString s.vl.toNat)
      cnt := BitVec.ofNat 4 (encLength s.vl.toNat)
      status := s.status &&& 0b100#3 }) ∨
    (s.len < s.off + encLength s.vl.toNat ∧ exec .encvl s = .next { s with
      buf := Memory.writeList s.buf s.off ((encString s.vl.toNat).take (s.len - s.off))
      status := 0b110#3 }) := by
  have e := encodeWith_eq (by decide) (by decide) s.vl s
  by_cases h : s.off + encLength s.vl.toNat ≤ s.len
  · rw [if_pos h] at e
    exact .inl ⟨h, congrArg Host.Outcome.next e⟩
  · rw [if_neg h] at e
    exact .inr ⟨by omega, congrArg Host.Outcome.next e⟩

/-! Unit VD. -/

/-- Everything DECVI does (R103, R104, R105). -/
theorem decvi_cases (s : State) :
    (∃ n, n < 5 ∧ (∀ k, k < n → contBit (s.stringByte k) = true) ∧ contBit (s.stringByte n) = false ∧
      s.accessIndex n < s.len ∧ exec .decvi s = .next { s with
        vi := s.stringValue 32 (n + 1)
        cnt := BitVec.ofNat 4 (n + 1)
        status := s.status &&& 0b100#3 }) ∨
    ((∀ k, k < 5 → contBit (s.stringByte k) = true) ∧ (∀ k, k < 5 → s.accessIndex k < s.len) ∧
      exec .decvi s = .next { s with
        eval := (s.stringValue 32 5).setWidth 64
        elen := s.len
        status := 0b101#3 }) ∨
    (∃ n, n < 5 ∧ (∀ k, k < n → contBit (s.stringByte k) = true) ∧ (∀ k, k < n → s.accessIndex k < s.len) ∧
      s.len ≤ s.accessIndex n ∧ exec .decvi s = .next { s with status := 0b110#3 }) := by
  have h := decodeWith_cases State.putVi s (by decide) (by decide)
  rw [show maxb 32 = 5 from rfl] at h
  rcases h with ⟨n, a, b, c, d, h⟩ | ⟨a, b, h⟩ | ⟨n, a, b, c, d, h⟩
  · rw [State.succeed_eq] at h
    exact .inl ⟨n, a, b, c, d, congrArg Host.Outcome.next h⟩
  · exact .inr (.inl ⟨a, b, congrArg Host.Outcome.next h⟩)
  · exact .inr (.inr ⟨n, a, b, c, d, congrArg Host.Outcome.next h⟩)

/-- Everything DECVL does (R103, R104, R105). -/
theorem decvl_cases (s : State) :
    (∃ n, n < 10 ∧ (∀ k, k < n → contBit (s.stringByte k) = true) ∧ contBit (s.stringByte n) = false ∧
      s.accessIndex n < s.len ∧ exec .decvl s = .next { s with
        vl := s.stringValue 64 (n + 1)
        cnt := BitVec.ofNat 4 (n + 1)
        status := s.status &&& 0b100#3 }) ∨
    ((∀ k, k < 10 → contBit (s.stringByte k) = true) ∧ (∀ k, k < 10 → s.accessIndex k < s.len) ∧
      exec .decvl s = .next { s with
        eval := s.stringValue 64 10
        elen := s.len
        status := 0b101#3 }) ∨
    (∃ n, n < 10 ∧ (∀ k, k < n → contBit (s.stringByte k) = true) ∧ (∀ k, k < n → s.accessIndex k < s.len) ∧
      s.len ≤ s.accessIndex n ∧ exec .decvl s = .next { s with status := 0b110#3 }) := by
  have h := decodeWith_cases State.putVl s (by decide) (by decide)
  rw [show maxb 64 = 10 from rfl, BitVec.setWidth_eq] at h
  rcases h with ⟨n, a, b, c, d, h⟩ | ⟨a, b, h⟩ | ⟨n, a, b, c, d, h⟩
  · rw [State.succeed_eq] at h
    exact .inl ⟨n, a, b, c, d, congrArg Host.Outcome.next h⟩
  · exact .inr (.inl ⟨a, b, congrArg Host.Outcome.next h⟩)
  · exact .inr (.inr ⟨n, a, b, c, d, congrArg Host.Outcome.next h⟩)

/-! Units PE and PD, and the reserved codes. -/

/-- Everything POSENC does (R115, R116). -/
theorem posenc_eq (s : State) : exec .posenc s = .next { s with
    pw := s.px.extractLsb' 0 26 ++ (s.pz.extractLsb' 0 26 ++ s.py.extractLsb' 0 12)
    status := s.status &&& 0b100#3 } := by
  rw [← posPack_eq]
  exact congrArg Host.Outcome.next (State.succeed_eq _)

/-- Everything POSDEC does (R123, R127). -/
theorem posdec_eq (s : State) : exec .posdec s = .next { s with
    px := (s.pw.extractLsb' 38 26).signExtend 32
    py := (s.pw.extractLsb' 0 12).signExtend 32
    pz := (s.pw.extractLsb' 12 26).signExtend 32
    status := s.status &&& 0b100#3 } := by
  rw [← posX_eq, ← posY_eq, ← posZ_eq]
  exact congrArg Host.Outcome.next (State.succeed_eq _)

theorem reserved5_eq (s : State) : exec .reserved5 s = .next (raise .illegalCommand s) := rfl

theorem reserved7_eq (s : State) : exec .reserved7 s = .next (raise .illegalCommand s) := rfl

end Sys2Proof.Machine
end

