-- ==== Sys2Proof/Laws/Host.lean ====
section
/-! SUPPORT. The host's actions: which action a step takes, and what the operations under them give. -/

namespace Sys2Proof.Machine

theorem Config.space_pos (c : Config) : 0 < c.space := Nat.two_pow_pos _

/-- What an `AW`-bit register takes is below `2^AW` (R10). -/
theorem bvAW_lt (c : Config) (v : Int) : bvAW c v < c.space := by
  have := Config.space_pos c
  have h1 := Int.emod_nonneg v (b := (c.space : Int)) (by omega)
  have h2 := Int.emod_lt_of_pos v (b := (c.space : Int)) (by omega)
  simp only [bvAW]
  omega

/-- A number that fits is taken as it is. -/
theorem bvAW_of_lt (c : Config) (n : Nat) (h : n < c.space) : bvAW c n = n := by
  simp only [bvAW]
  rw [Int.emod_eq_of_lt (by omega) (by omega)]
  rfl

theorem padded_length (n : Nat) (bytes : List Byte) : (padded n bytes).length = n := by
  simp [padded]
  omega

/-- Byte `k` of the list that `BUFSET` writes: the listed one, or the pad byte (R80). -/
theorem padded_getElem (n : Nat) (bytes : List Byte) (k : Nat) (h : k < (padded n bytes).length) :
    (padded n bytes)[k] = bytes.getD k padByte := by
  have hn : k < n := by rwa [padded_length] at h
  simp only [padded, List.getElem_take, List.getElem_append, List.getElem_replicate]
  split
  · simp [List.getD, *]
  · have : bytes.length ≤ k := by omega
    simp [List.getD, List.getElem?_eq_none this]

theorem Memory.below_mono {n m : Nat} {l : Memory} (h : n ≤ m) (hl : Memory.below n l = true) :
    Memory.below m l = true := by
  simp only [Memory.below, List.all_eq_true, decide_eq_true_eq] at *
  intro x hx
  have := hl x hx
  omega

/-! Each conditional host action, at each of its two outcomes. -/

theorem hostBufWrite_of_lt {s : State} {a : Nat} (h : a < s.cfg.space) (b : Byte) :
    hostBufWrite a b s = .next { s with buf := Memory.write s.buf a b } := if_pos h

theorem hostBufWrite_of_le {s : State} {a : Nat} (h : s.cfg.space ≤ a) (b : Byte) :
    hostBufWrite a b s = .fault .indexOutsideSpace := if_neg (by omega)

theorem hostBufget_of_le {s : State} {a n : Nat} (h : a + n ≤ s.cfg.space) : hostBufget a n s = .next s := if_pos h

theorem hostBufget_of_lt {s : State} {a n : Nat} (h : s.cfg.space < a + n) :
    hostBufget a n s = .fault .indexOutsideSpace := if_neg (by omega)

theorem hostAdv_of_lt {s : State} (h : s.off + s.cnt.toNat < s.cfg.space) :
    hostAdv s = .next { s with off := s.off + s.cnt.toNat } := by
  have e : hostAdv s = hostWr .off ((s.off + s.cnt.toNat : Nat) : Int) s := if_pos h
  rw [e, hostWr, writeReg, bvAW_of_lt _ _ h]

theorem hostAdv_of_le {s : State} (h : s.cfg.space ≤ s.off + s.cnt.toNat) : hostAdv s = .next s.takeFreeOff :=
  if_neg (by omega)

/-- A free value of `OFF` is `AW` bits wide. -/
theorem State.freeOff_lt (s : State) : s.freeOff < s.cfg.space := bvAW_lt _ _

/-! The step of each host action. -/

theorem step_command {s : State} {c : BitVec 3} {rest : List HostAction} (h : s.pending = .command c :: rest) :
    step s = exec (decodeCommand c) (State.writeCmd c (State.withPending rest s)) := by rw [step, h]

theorem step_wr {s : State} {r : WritableReg} {v : Int} {rest : List HostAction} (h : s.pending = .wr r v :: rest) :
    step s = hostWr r v (State.withPending rest s) := by rw [step, h]

theorem step_bufWrite {s : State} {a : Nat} {b : Byte} {rest : List HostAction}
    (h : s.pending = .bufWrite a b :: rest) : step s = hostBufWrite a b (State.withPending rest s) := by rw [step, h]

theorem step_bufget {s : State} {a n : Nat} {rest : List HostAction} (h : s.pending = .bufget a n :: rest) :
    step s = hostBufget a n (State.withPending rest s) := by rw [step, h]

theorem step_bufset {s : State} {n : Nat} {bytes : List Byte} {rest : List HostAction}
    (h : s.pending = .bufset n bytes :: rest) : step s = hostBufset n bytes (State.withPending rest s) := by
  rw [step, h]

theorem step_adv {s : State} {rest : List HostAction} (h : s.pending = .adv :: rest) :
    step s = hostAdv (State.withPending rest s) := by rw [step, h]

theorem step_reset {s : State} {rest : List HostAction} (h : s.pending = .reset :: rest) :
    step s = hostReset (State.withPending rest s) := by rw [step, h]

end Sys2Proof.Machine
end

