-- ==== Sys2Proof/Laws/PerInstr.lean ====
section
/-! SUPPORT. One family of statements made for every command: its word and the three fields in it
(30_encoding.md R72). -/

namespace Sys2Proof.Laws.CommandWord

/-- The command is well formed, its word fits `CMD`, and the bits of the word are its fields `UNIT`, `DIR`, `WIDE`. -/
def Statement (i : Instr) : Prop :=
  i.wellFormed = true ∧ commandWordFits (encode i).toNat = true ∧
    (encode i).getLsbD 2 = i.unit ∧ (encode i).getLsbD 1 = i.dir ∧ (encode i).getLsbD 0 = i.wide

theorem encvi : Statement .encvi := ⟨rfl, by decide⟩
theorem encvl : Statement .encvl := ⟨rfl, by decide⟩
theorem decvi : Statement .decvi := ⟨rfl, by decide⟩
theorem decvl : Statement .decvl := ⟨rfl, by decide⟩
theorem posenc : Statement .posenc := ⟨rfl, by decide⟩
theorem posdec : Statement .posdec := ⟨rfl, by decide⟩
theorem reserved5 : Statement .reserved5 := ⟨rfl, by decide⟩
theorem reserved7 : Statement .reserved7 := ⟨rfl, by decide⟩

end Sys2Proof.Laws.CommandWord
end

