-- ==== Sys2Proof/Tests/Slice0.lean ====
section
/-! SUPPORT. The model's own tests. Expected results are those of spec/95_test_vectors.md (the vector's id stands at
each test) or are read off the rule named; the witnesses at the end show, for each statement of
Certificates/Slice0/Obligations.lean that has hypotheses, a concrete state that meets them, clause by clause. -/

namespace Sys2Proof.Tests

open Sys2Proof.Machine

/-! Helpers. -/

/-- A block with `AW` 4 whose buffer holds exactly the bytes, the cursor at `off`; every register else 0. -/
def holding (bytes : List Byte) (off : Nat) : State :=
  { State.reset with
    cfg := { aw := 4 }
    buf := Memory.writeList [] 0 bytes
    len := bytes.length
    off := off }

/-- The next state an outcome answers; the given state where it answers none. -/
def nextOr (s : State) (o : Host.Outcome State Fault Refusal) : State :=
  match o with
  | .next t => t
  | .fault _ => s
  | .refused _ => s

/-- The state after a command. -/
def after (i : Instr) (s : State) : State := nextOr s (exec i s)

/-- The state after a host action. -/
def afterAct (a : HostAction) (s : State) : State := nextOr s (step { s with pending := [a] })

theorem exec_after (i : Instr) (s : State) : exec i s = .next (after i s) := by cases i <;> rfl

/-! Well-formedness refuses what it must. -/

theorem test_command_word_of_four_bits_refused : commandWordFits 8 = false := by decide
theorem test_command_word_seven_fits : commandWordFits 7 = true := by decide
theorem test_aw_three_refused : Config.wellFormed { aw := 3 } = false := by decide
theorem test_aw_four_legal : Config.wellFormed { aw := 4 } = true := by decide
theorem test_uncanonical_memory_refused :
    Memory.wf [(1, 5), (0, 5)] = false ∧ Memory.wf [(0, 0)] = false ∧ Memory.wf [(2, 5), (2, 6)] = false := by decide
theorem test_too_wide_word_rejected_by_name : decodeWord 8 = .error .widerThanCmd := rfl

/-! Decoding: the words of the command map (30_encoding.md R72), written out bit by bit: UNIT, DIR, WIDE. -/

theorem test_decode_encvi : decodeTableWord 8 0b000 = some .encvi := by decide
theorem test_decode_encvl : decodeTableWord 8 0b001 = some .encvl := by decide
theorem test_decode_decvi : decodeTableWord 8 0b010 = some .decvi := by decide
theorem test_decode_decvl : decodeTableWord 8 0b011 = some .decvl := by decide
theorem test_decode_posenc : decodeTableWord 8 0b100 = some .posenc := by decide
theorem test_decode_reserved5 : decodeTableWord 8 0b101 = some .reserved5 := by decide
theorem test_decode_posdec : decodeTableWord 8 0b110 = some .posdec := by decide
theorem test_decode_reserved7 : decodeTableWord 8 0b111 = some .reserved7 := by decide
theorem test_encode_words :
    encode .encvi = 0b000#3 ∧ encode .encvl = 0b001#3 ∧ encode .decvi = 0b010#3 ∧ encode .decvl = 0b011#3 ∧
      encode .posenc = 0b100#3 ∧ encode .reserved5 = 0b101#3 ∧ encode .posdec = 0b110#3 ∧
      encode .reserved7 = 0b111#3 := by decide

/-! One command on a small state. -/

/-- V-VE-40: an offset, the neighbours untouched. -/
def encviState : State := { holding [0x11, 0x22, 0x33, 0x44, 0x55, 0x66, 0x77, 0x88] 3 with vi := 300 }

theorem test_encvi_at_an_offset :
    bufBytes 0 8 (after .encvi encviState) = [0x11, 0x22, 0x33, 0xAC, 0x02, 0x66, 0x77, 0x88] ∧
      (after .encvi encviState).cnt = 2 ∧ (after .encvi encviState).off = 3 ∧
      (after .encvi encviState).status = 0 := by decide

/-- V-VE-52 (with `CNT` 1 before): a full buffer keeps the prefix. -/
def encviFull : State := { holding [0xEE, 0xEE, 0xEE, 0xEE] 0 with vi := 0xFFFFFFFF, cnt := 1 }

theorem test_encvi_out_of_room :
    bufBytes 0 5 (after .encvi encviFull) = [0xFF, 0xFF, 0xFF, 0xFF, 0x00] ∧
      (after .encvi encviFull).cnt = 1 ∧ (after .encvi encviFull).code = 2 ∧
      (after .encvi encviFull).fseen = true := by decide

/-- V-VE-35: the most negative VarLong; ten bytes. -/
def encvlMin : State := { holding (List.replicate 11 0xEE) 0 with vl := 0x8000000000000000, vi := 7 }

theorem test_encvl_most_negative :
    bufBytes 0 11 (after .encvl encvlMin) =
        [0x80, 0x80, 0x80, 0x80, 0x80, 0x80, 0x80, 0x80, 0x80, 0x01, 0xEE] ∧
      (after .encvl encvlMin).cnt = 10 ∧ (after .encvl encvlMin).status = 0 ∧ (after .encvl encvlMin).vi = 7 := by
  decide

/-- V-VE-57 at the width of ENCVL and `AW` 4: indices do not wrap at the top of the index space (R44). -/
def encvlTop : State := { State.reset with cfg := { aw := 4 }, len := 15, off := 14, vl := 300 }

theorem test_encvl_does_not_wrap :
    Memory.read (after .encvl encvlTop).buf 14 = 0xAC ∧ Memory.read (after .encvl encvlTop).buf 0 = 0 ∧
      (after .encvl encvlTop).code = 2 ∧ (after .encvl encvlTop).cnt = 0 := by decide

/-- V-VD-43: payload bits beyond the width dropped; a full-length string with a clear last bit is accepted. -/
def decviExcess : State := { holding [0xFF, 0xFF, 0xFF, 0xFF, 0x7F] 0 with vi := 0xAAAAAAAA, vl := 0xAAAAAAAAAAAAAAAA }

theorem test_decvi_minus_one :
    (after .decvi decviExcess).vi = 0xFFFFFFFF ∧ (after .decvi decviExcess).cnt = 5 ∧
      (after .decvi decviExcess).status = 0 ∧ (after .decvi decviExcess).vl = 0xAAAAAAAAAAAAAAAA := by decide

/-- V-VD-74: too many groups; the payload of the fault. -/
def decviTooLong : State := { holding [0x81, 0x82, 0x83, 0x84, 0x85, 0x06] 0 with vi := 0xAAAAAAAA }

theorem test_decvi_size_exceeded :
    (after .decvi decviTooLong).eval = 0x000000005080C101 ∧ (after .decvi decviTooLong).elen = 6 ∧
      (after .decvi decviTooLong).code = 1 ∧ (after .decvi decviTooLong).fseen = true ∧
      (after .decvi decviTooLong).vi = 0xAAAAAAAA ∧ (after .decvi decviTooLong).cnt = 0 := by decide

/-- V-VD-38: -2^31 at 64 bits. -/
def decvlState : State := { holding [0x80, 0x80, 0x80, 0x80, 0xF8, 0xFF, 0xFF, 0xFF, 0xFF, 0x01] 0 with vi := 9 }

theorem test_decvl_ten_bytes :
    (after .decvl decvlState).vl = 0xFFFFFFFF80000000 ∧ (after .decvl decvlState).cnt = 10 ∧
      (after .decvl decvlState).status = 0 ∧ (after .decvl decvlState).vi = 9 := by decide

/-- V-VD-97: nine bytes and the end of the buffer. -/
def decvlShort : State := holding (List.replicate 9 0x80) 0

theorem test_decvl_underrun :
    (after .decvl decvlShort).code = 2 ∧ (after .decvl decvlShort).fseen = true ∧
      (after .decvl decvlShort).vl = 0 ∧ (after .decvl decvlShort).elen = 0 := by decide

/-- V-PE-13. -/
def posencState : State := { State.reset with px := 0xFFFFFFFF, py := 0xFFFFFFFE, pz := 3 }

theorem test_posenc_mixed_signs :
    (after .posenc posencState).pw = 0xFFFFFFC000003FFE ∧ (after .posenc posencState).status = 0 := by decide

/-- V-PE-16: out of range, truncated without a fault. -/
def posencOut : State := { State.reset with px := 0x02000001, py := 0x00001000, pz := 0xFDFFFFFF, status := 0b110 }

theorem test_posenc_truncates :
    (after .posenc posencOut).pw = 0x8000005FFFFFF000 ∧ (after .posenc posencOut).status = 0b100#3 := by decide

/-- V-PD-17. -/
def posdecState : State := { State.reset with pw := 0x0123456789ABCDEF }

theorem test_posdec_arbitrary_word :
    (after .posdec posdecState).px = 0x00048D15 ∧ (after .posdec posdecState).py = 0xFFFFFDEF ∧
      (after .posdec posdecState).pz = 0xFE789ABC := by decide

/-- V-PD-8: between half the midpoint and the midpoint, positive (R131). -/
def posdecHalf : State := { State.reset with pw := 0x4000001000000400 }

theorem test_posdec_below_the_midpoint :
    (after .posdec posdecHalf).px.toInt = 16777216 ∧ (after .posdec posdecHalf).py.toInt = 1024 ∧
      (after .posdec posdecHalf).pz.toInt = 16777216 := by decide

/-- V-X-1. -/
def reservedState : State := { holding [0xAC, 0x02, 0xEE, 0xEE] 0 with vi := 7, px := 1, pw := 9, pending := [.command 5] }

theorem test_reserved5 :
    step reservedState = .next { reservedState with status := 0b111, cmd := 5, pending := [] } := by rfl

/-- V-X-2. -/
theorem test_reserved7 :
    step { reservedState with pending := [.command 7] } =
      .next { reservedState with status := 0b111, cmd := 7, pending := [] } := by rfl

/-! Host actions. -/

/-- V-X-4: reset clears the registers and keeps the bytes. -/
theorem test_reset_action :
    step { reservedState with status := 0b111, pending := [.reset] } =
      .next { State.reset with cfg := { aw := 4 }, buf := reservedState.buf } := by rfl

/-- V-X-1's `BUFSET 4, AC 02`: padded with `EE`. -/
theorem test_bufset_pads :
    bufBytes 0 5 (afterAct (.bufset 4 [0xAC, 0x02]) (holding [] 0)) = [0xAC, 0x02, 0xEE, 0xEE, 0x00] ∧
      (afterAct (.bufset 4 [0xAC, 0x02]) (holding [] 0)).len = 4 := by decide

/-- P1, steps 5 to 8: `ADV` after an encode of 300, then a negative host write. -/
theorem test_adv_and_wr :
    (afterAct .adv (after .encvi encviState)).off = 5 ∧ (afterAct (.wr .vi (-1)) encviState).vi = 0xFFFFFFFF ∧
      checkHolds 0 (after .encvi encviState) = true := by decide

/-- R81, R172: an `ADV` whose sum reaches `2^AW` goes on; only `OFF` and the count of free values can differ. -/
theorem test_adv_beyond_the_space_goes_on :
    step { holding [0x12] 15 with cnt := 1, pending := [.adv] } =
      .next { holding [0x12] 15 with cnt := 1, off := (holding [0x12] 15).freeOff, freeCount := 1 } := rfl

/-- R40, R44: the two host actions that stop the model. -/
theorem test_no_byte_outside_the_space :
    step { holding [] 0 with pending := [.bufWrite 16 1] } = .fault .indexOutsideSpace ∧
      step { holding [] 0 with pending := [.bufget 10 7] } = .fault .indexOutsideSpace := ⟨rfl, rfl⟩

/-- 20_memory.md R41, 40_varint_encode.md R95: the closed forms on the document's examples (S3, S5, S8 corrected). -/
theorem test_canonical_strings :
    encString 128 = [0x80, 0x01] ∧ encString 0x7FFFFFFF = [0xFF, 0xFF, 0xFF, 0xFF, 0x07] ∧ encString 0 = [0x00] ∧
      encLength 0x8000000000000000 = 10 := by decide

/-! Witnesses: for each statement with hypotheses, states that meet them together, at the edges of their ranges. A
witness is named after its statement; where the statement has several clauses, the conjuncts follow them. -/

/-- A block with `AW` 4 whose cursor is at `off` and whose `LEN` is `len`, over the bytes `EE`. -/
def room (len off : Nat) : State := { holding (List.replicate len 0xEE) off with cnt := 7 }

theorem witness_DecodeAndEncodeAgree : Instr.posdec.wellFormed = true ∧ 8 ≤ 8 := by decide

theorem witness_WritingCmdRunsTheCommandItNames :
    ({ encviState with pending := [.command 0b111, .adv] } : State).pending = .command 0b111 :: [.adv] := rfl

theorem witness_FetchWordIsTheNextCommand :
    decodeTableWord 8 0 = some .encvi ∧ decodeTableWord 8 7 = some .reserved7 := by decide

theorem witness_IdleBlockHoldsItsState : encviState.pending = [] := rfl

theorem witness_OnlyForbiddenHostActionsStop :
    (step { holding [] 0 with pending := [.bufWrite 16 1] } = .fault .indexOutsideSpace ∧
        step { holding [] 0 with pending := [.bufget 10 7] } = .fault .indexOutsideSpace) ∧
      (∃ t, step { holding [] 15 with cnt := 1, pending := [.adv] } = .next t) ∧
      (∃ t, step { holding [] 0 with pending := [.bufWrite 15 1] } = .next t) ∧
      ∃ t, step { holding [] 0 with pending := [.bufget 10 6] } = .next t :=
  ⟨⟨rfl, rfl⟩, ⟨_, rfl⟩, ⟨_, rfl⟩, _, rfl⟩

theorem witness_ResetWritesZeroAndKeepsTheBuffer :
    ({ reservedState with pending := [.reset, .rd .vi] } : State).pending = .reset :: [.rd .vi] := rfl

theorem witness_EveryStepKeepsTheInvariant :
    ∃ t, State.Inv { encvlTop with pending := [.command 1] } ∧ step { encvlTop with pending := [.command 1] } = .next t ∧
      t ≠ encvlTop :=
  ⟨_, by decide, rfl, by decide⟩

theorem witness_BufferAccessIsBoundedByLen :
    3 < (room 4 0).len ∧ (room 4 0).len ≤ 4 ∧ Memory.wf (room 4 0).buf = true ∧
      (room 4 4).len ≤ (room 4 4).off + (vdStart 32).i.toNat ∧
      (room 4 4).len ≤ (room 4 4).off + (veStart (300 : BitVec 64)).i.toNat :=
  ⟨by decide, by decide, by decide, by decide, by decide⟩

theorem witness_IndicesDoNotWrap : State.Inv encvlTop ∧ encvlTop.cfg.space ≤ encvlTop.off + 2 := by decide

theorem witness_ReservedCodesRaiseIllegalCommand :
    reservedState.pending = .command 5 :: [] ∧
      ({ reservedState with pending := [.command 7] } : State).pending = .command 7 :: [] := ⟨rfl, rfl⟩

theorem witness_StatusIsWrittenByEveryCommandAndReadByNone :
    (exec .encvi encviFull = .next (after .encvi encviFull) ∧ (after .encvi encviFull).code ≠ 0) ∧
      exec .encvi encviState = .next (after .encvi encviState) ∧ (after .encvi encviState).code = 0 :=
  ⟨⟨rfl, by decide⟩, rfl, by decide⟩

theorem witness_EachCommandEndsWithItsCodes :
    (∀ i : Instr, exec i encviState = .next (after i encviState)) ∧ (after .encvl encviFull).code = 0 ∧
      (after .encvl encvlTop).code = 2 ∧ (after .decvi decviTooLong).code = 1 ∧ (after .decvl decvlShort).code = 2 ∧
      (after .reserved5 encviState).code = 3 :=
  ⟨fun i => exec_after i _, by decide⟩

theorem witness_OnlyResetClearsFseen :
    (∃ t, step { posencOut with pending := [.command 4] } = .next t ∧ posencOut.fseen = true ∧
      ∀ rest, ({ posencOut with pending := [.command 4] } : State).pending ≠ .reset :: rest) ∧
    (∃ t rest, step { posencOut with pending := [.reset] } = .next t ∧
      ({ posencOut with pending := [.reset] } : State).pending = .reset :: rest) ∧
    (∃ t, step reservedState = .next t ∧ t.code ≠ 0) ∧
    ∃ t, step { encviState with pending := [.command 0] } = .next t ∧ t.code = 0 :=
  ⟨⟨_, rfl, by decide, by simp⟩, ⟨_, _, rfl, rfl⟩, ⟨_, rfl, by decide⟩, _, rfl, by decide⟩

theorem witness_FaultingCommandKeepsTheRegisters :
    (exec .decvi decviTooLong = .next (after .decvi decviTooLong) ∧ (after .decvi decviTooLong).code = 1) ∧
    (exec .encvi encviFull = .next (after .encvi encviFull) ∧ (after .encvi encviFull).code ≠ 0 ∧
      (after .encvi encviFull).code ≠ 1 ∧ (after .encvi encviFull).buf ≠ encviFull.buf ∧
      encviFull.outside (encviFull.len - encviFull.off) 4) ∧
    exec .reserved7 encviFull = .next (after .reserved7 encviFull) ∧ (after .reserved7 encviFull).code ≠ 0 :=
  ⟨⟨rfl, by decide⟩, ⟨rfl, by unfold State.outside; decide⟩, rfl, by decide⟩

theorem witness_SuccessfulCommandWritesItsResultsOnly :
    (exec .encvi encviState = .next (after .encvi encviState) ∧ (after .encvi encviState).code = 0 ∧
      encviState.outside (encLength encviState.vi.toNat) 2 ∧ encviState.outside (encLength encviState.vi.toNat) 5) ∧
    (exec .encvl encvlMin = .next (after .encvl encvlMin) ∧ (after .encvl encvlMin).code = 0 ∧
      encvlMin.outside (encLength encvlMin.vl.toNat) 10) ∧
    (exec .decvi decviExcess = .next (after .decvi decviExcess) ∧ (after .decvi decviExcess).code = 0) ∧
    (exec .decvl decvlState = .next (after .decvl decvlState) ∧ (after .decvl decvlState).code = 0) ∧
    exec .posenc posencState = .next (after .posenc posencState) ∧
    exec .posdec posdecState = .next (after .posdec posdecState) :=
  ⟨⟨rfl, by unfold State.outside; decide⟩, ⟨rfl, by unfold State.outside; decide⟩, ⟨rfl, by decide⟩, ⟨rfl, by decide⟩,
    rfl, rfl⟩

/-- An exact fit for a value of one byte and for one of full length, at both widths. -/
def fits (n : Nat) (v : BitVec 32) (l : BitVec 64) : State := { room 12 (12 - n) with vi := v, vl := l }

theorem witness_EncodeStoresTheCanonicalString :
    (Memory.wf (fits 1 127 127).buf = true ∧
      (fits 1 127 127).off + encLength (fits 1 127 127).vi.toNat = (fits 1 127 127).len ∧
      (fits 1 127 127).off + encLength (fits 1 127 127).vl.toNat = (fits 1 127 127).len) ∧
    (fits 5 (-1) 0).off + encLength (fits 5 (-1) 0).vi.toNat = (fits 5 (-1) 0).len ∧
    (fits 10 0 (-1)).off + encLength (fits 10 0 (-1)).vl.toNat = (fits 10 0 (-1)).len := by decide

theorem witness_EncodeThatDoesNotFitLeavesItsPrefix :
    (Memory.wf (fits 4 (-1) (-1)).buf = true ∧
      (fits 4 (-1) (-1)).off + encLength (fits 4 (-1) (-1)).vi.toNat > (fits 4 (-1) (-1)).len ∧
      (fits 4 (-1) (-1)).accessIndex 3 < (fits 4 (-1) (-1)).len ∧ (fits 4 (-1) (-1)).outside 4 7) ∧
    (fits 9 0 (-1)).off + encLength (fits 9 0 (-1)).vl.toNat > (fits 9 0 (-1)).len ∧
    (room 4 9).off + encLength (room 4 9).vi.toNat > (room 4 9).len :=
  ⟨⟨by decide, by decide, by decide, by unfold State.outside; decide⟩, by decide, by decide⟩

theorem witness_EncodeChangesOnlyItsStringCntAndStatus :
    (exec .encvi encviFull = .next (after .encvi encviFull) ∧
      ∀ k, k < encLength encviFull.vi.toNat → encviFull.accessIndex k < encviFull.len → 4 ≠ encviFull.accessIndex k) ∧
    exec .encvl encvlMin = .next (after .encvl encvlMin) ∧
      ∀ k, k < encLength encvlMin.vl.toNat → encvlMin.accessIndex k < encvlMin.len → 10 ≠ encvlMin.accessIndex k :=
  ⟨⟨rfl, by decide⟩, rfl, by decide⟩

theorem witness_EncodedLengthIsTheLeast :
    (Memory.wf encviState.buf = true ∧ exec .encvi encviState = .next (after .encvi encviState) ∧
      (after .encvi encviState).code = 0 ∧ 2 ≤ (after .encvi encviState).cnt.toNat ∧
      encviState.vi.toNat < 2 ^ (7 * 2)) ∧
    Memory.wf encvlMin.buf = true ∧ exec .encvl encvlMin = .next (after .encvl encvlMin) ∧
      (after .encvl encvlMin).code = 0 ∧ 2 ≤ (after .encvl encvlMin).cnt.toNat ∧
      encvlMin.vl.toNat < 2 ^ (7 * 10) :=
  ⟨⟨by decide, rfl, by decide⟩, by decide, rfl, by decide⟩

theorem witness_NegativeValuesTakeTheFullLength :
    (Memory.wf (fits 5 (-1) 0).buf = true ∧ exec .encvi (fits 5 (-1) 0) = .next (after .encvi (fits 5 (-1) 0)) ∧
      (after .encvi (fits 5 (-1) 0)).code = 0 ∧ (fits 5 (-1) 0).vi.toInt < 0) ∧
    ((after .encvi (fits 5 0x7FFFFFFF 0)).code = 0 ∧ 0 ≤ (fits 5 0x7FFFFFFF 0).vi.toInt ∧
      (after .encvi (fits 5 0x7FFFFFFF 0)).cnt = 5) ∧
    (exec .encvl encvlMin = .next (after .encvl encvlMin) ∧ (after .encvl encvlMin).code = 0 ∧
      encvlMin.vl.toInt < 0) ∧
    (after .encvl (fits 9 0 0x7FFFFFFFFFFFFFFF)).code = 0 ∧ 0 ≤ (fits 9 0 0x7FFFFFFFFFFFFFFF).vl.toInt :=
  ⟨⟨by decide, rfl, by decide⟩, by decide, ⟨rfl, by decide⟩, by decide⟩

theorem witness_EncodeWithRoomSucceeds :
    (room 12 7).off + 5 ≤ (room 12 7).len ∧ (fits 1 127 127).off + encLength (fits 1 127 127).vi.toNat ≤ 12 ∧
      (room 12 2).off + 10 ≤ (room 12 2).len ∧
      (fits 1 127 127).off + encLength (fits 1 127 127).vl.toNat ≤ 12 := by decide

/-- Strings whose byte 0, byte 4 and byte 9 are the first with a clear continuation bit. -/
theorem witness_DecodeOfATerminatedString :
    ((∀ k, k < 0 → contBit ((holding [0x7F] 0).stringByte k) = true) ∧
      contBit ((holding [0x7F] 0).stringByte 0) = false ∧ (holding [0x7F] 0).accessIndex 0 < 1) ∧
    ((∀ k, k < 4 → contBit (decviExcess.stringByte k) = true) ∧ contBit (decviExcess.stringByte 4) = false ∧
      decviExcess.accessIndex 4 < decviExcess.len) ∧
    (∀ k, k < 9 → contBit (decvlState.stringByte k) = true) ∧ contBit (decvlState.stringByte 9) = false ∧
      decvlState.accessIndex 9 < decvlState.len := by decide

theorem witness_DecodeOfTooManyGroups :
    ((∀ k, k < 5 → contBit (decviTooLong.stringByte k) = true) ∧ decviTooLong.accessIndex 4 < decviTooLong.len) ∧
    (∀ k, k < 10 → contBit ((room 10 0).stringByte k) = true) ∧ (room 10 0).accessIndex 9 < (room 10 0).len := by
  decide

theorem witness_DecodeOfATruncatedString :
    ((∀ k, k < 4 → contBit ((room 4 0).stringByte k) = true) ∧
      (∀ k, k < 4 → (room 4 0).accessIndex k < (room 4 0).len) ∧ (room 4 0).len ≤ (room 4 0).accessIndex 4) ∧
    ((∀ k, k < 9 → contBit (decvlShort.stringByte k) = true) ∧
      (∀ k, k < 9 → decvlShort.accessIndex k < decvlShort.len) ∧ decvlShort.len ≤ decvlShort.accessIndex 9) ∧
    (room 0 0).len ≤ (room 0 0).accessIndex 0 := by decide

theorem witness_DecodeOutcomeIsDecidedByTheLeadingBytes :
    (decviExcess.leading (min decviExcess.avail 5) < min decviExcess.avail 5) ∧
    (decviTooLong.leading (min decviTooLong.avail 5) = 5) ∧
    ((room 4 0).leading (min (room 4 0).avail 5) = (room 4 0).avail ∧ (room 4 0).avail < 5) ∧
    (decvlState.leading (min decvlState.avail 10) < min decvlState.avail 10) ∧
    ((room 10 0).leading (min (room 10 0).avail 10) = 10) ∧
    decvlShort.leading (min decvlShort.avail 10) = decvlShort.avail ∧ decvlShort.avail < 10 := by decide

theorem witness_ShortStringsDecodeToNonNegativeValues :
    (exec .decvi (holding [0xFF, 0xFF, 0xFF, 0x7F] 0) = .next (after .decvi (holding [0xFF, 0xFF, 0xFF, 0x7F] 0)) ∧
      (after .decvi (holding [0xFF, 0xFF, 0xFF, 0x7F] 0)).code = 0 ∧
      (after .decvi (holding [0xFF, 0xFF, 0xFF, 0x7F] 0)).cnt.toNat < 5) ∧
    ((after .decvi decviExcess).code = 0 ∧ (after .decvi decviExcess).vi.toInt < 0) ∧
    ((after .decvl decviExcess).code = 0 ∧ (after .decvl decviExcess).cnt.toNat < 10) ∧
    exec .decvl decvlState = .next (after .decvl decvlState) ∧ (after .decvl decvlState).code = 0 ∧
      (after .decvl decvlState).vl.toInt < 0 :=
  ⟨⟨rfl, by decide⟩, by decide, by decide, rfl, by decide⟩

/-- Another memory behind the same string: a success (two bytes agree) and a fault (five bytes agree). -/
theorem witness_DecodeDependsOnItsStringOnly :
    (exec .decvi (holding [0xAC, 0x02, 0xFF] 0) = .next (after .decvi (holding [0xAC, 0x02, 0xFF] 0)) ∧
      (after .decvi (holding [0xAC, 0x02, 0xFF] 0)).code = 0 ∧
      ∀ k, k < 2 → Memory.read [(0, 0xAC), (1, 0x02), (2, 0x55)] ((holding [0xAC, 0x02, 0xFF] 0).accessIndex k) =
        (holding [0xAC, 0x02, 0xFF] 0).stringByte k) ∧
    (exec .decvi decviTooLong = .next (after .decvi decviTooLong) ∧ (after .decvi decviTooLong).code ≠ 0 ∧
      ∀ k, k < 5 → Memory.read [(0, 0x81), (1, 0x82), (2, 0x83), (3, 0x84), (4, 0x85)] (decviTooLong.accessIndex k) =
        decviTooLong.stringByte k) ∧
    exec .decvl decvlState = .next (after .decvl decvlState) ∧
      ∀ k, k < 10 → Memory.read decvlState.buf (decvlState.accessIndex k) = decvlState.stringByte k :=
  ⟨⟨rfl, by decide⟩, ⟨rfl, by decide⟩, rfl, by decide⟩

theorem witness_ExcessPayloadBitsAreDropped :
    (Memory.wf decviExcess.buf = true ∧ exec .decvi decviExcess = .next (after .decvi decviExcess) ∧
      contBit 0x0F = contBit (decviExcess.stringByte 4) ∧
      BitVec.extractLsb' 0 4 (0x0F : Byte) = (decviExcess.stringByte 4).extractLsb' 0 4) ∧
    Memory.wf decvlState.buf = true ∧ exec .decvl decvlState = .next (after .decvl decvlState) ∧
      contBit 0x7F = contBit (decvlState.stringByte 9) ∧
      BitVec.extractLsb' 0 1 (0x7F : Byte) = (decvlState.stringByte 9).extractLsb' 0 1 :=
  ⟨⟨by decide, rfl, by decide⟩, by decide, rfl, by decide⟩

theorem witness_DecodeChangesOnlyItsResults :
    (exec .decvi decviTooLong = .next (after .decvi decviTooLong) ∧ (after .decvi decviTooLong).code ≠ 0) ∧
    (exec .decvi decviExcess = .next (after .decvi decviExcess) ∧ (after .decvi decviExcess).code ≠ 1) ∧
    (exec .decvl decvlShort = .next (after .decvl decvlShort) ∧ (after .decvl decvlShort).code ≠ 0) ∧
    exec .decvl decvlState = .next (after .decvl decvlState) ∧ (after .decvl decvlState).code ≠ 1 :=
  ⟨⟨rfl, by decide⟩, ⟨rfl, by decide⟩, ⟨rfl, by decide⟩, rfl, by decide⟩

theorem witness_DecodeAfterEncodeReturnsTheValue :
    (Memory.wf (fits 5 (-1) 0).buf = true ∧ (after .encvi (fits 5 (-1) 0)).code = 0 ∧
      exec .encvi (fits 5 (-1) 0) = .next (after .encvi (fits 5 (-1) 0))) ∧
    Memory.wf encvlMin.buf = true ∧ (after .encvl encvlMin).code = 0 ∧
      exec .encvl encvlMin = .next (after .encvl encvlMin) :=
  ⟨⟨by decide, by decide, rfl⟩, by decide, by decide, rfl⟩

/-- A prefix of four bytes, and prefixes of five and of four bytes left by an ENCVL. -/
theorem witness_DecodeOfAFailedEncodesPrefixFaults :
    (Memory.wf encviFull.buf = true ∧ (after .encvi encviFull).code = 2 ∧
      exec .encvi encviFull = .next (after .encvi encviFull)) ∧
    (Memory.wf (fits 5 0 (-1)).buf = true ∧ (after .encvl (fits 5 0 (-1))).code = 2 ∧
      exec .encvl (fits 5 0 (-1)) = .next (after .encvl (fits 5 0 (-1))) ∧
      5 ≤ (fits 5 0 (-1)).len - (fits 5 0 (-1)).off) ∧
    (after .encvl (fits 4 0 (-1))).code = 2 ∧ ¬ 5 ≤ (fits 4 0 (-1)).len - (fits 4 0 (-1)).off :=
  ⟨⟨by decide, by decide, rfl⟩, ⟨by decide, by decide, rfl, by decide⟩, by decide⟩

/-- The greatest `LEN` of `AW` 4, the string ending at it. -/
theorem witness_CursorFitsAfterASuccess :
    State.Inv { encvlTop with vl := 5, vi := 5 } ∧
      exec .encvl { encvlTop with vl := 5, vi := 5 } = .next (after .encvl { encvlTop with vl := 5, vi := 5 }) ∧
      (after .encvl { encvlTop with vl := 5, vi := 5 }).code = 0 ∧
      (after .encvi { encvlTop with vl := 5, vi := 5 }).code = 0 ∧
      (after .decvi encvlTop).code = 0 ∧ (after .decvl encvlTop).code = 0 ∧ State.Inv encvlTop :=
  ⟨by decide, rfl, by decide⟩

theorem witness_PosencPacksTheThreeFields :
    exec .posenc posencState = .next (after .posenc posencState) := rfl

/-- Every field at its midpoint and, in `posdecHalf`, below it. -/
theorem witness_PosdecSignExtendsTheThreeFields :
    exec .posdec { State.reset with pw := 0x8000002000000800 } =
        .next (after .posdec { State.reset with pw := 0x8000002000000800 }) ∧
      exec .posdec posdecHalf = .next (after .posdec posdecHalf) := ⟨rfl, rfl⟩

theorem witness_DecodedCoordinatesAreInRange : exec .posdec posdecState = .next (after .posdec posdecState) := rfl

/-- The least and the greatest triple in range (V-PE-11, V-PE-10). -/
def posencLeast : State := { State.reset with px := 0xFE000000, py := 0xFFFFF800, pz := 0xFE000000 }
def posencGreatest : State := { State.reset with px := 0x01FFFFFF, py := 0x000007FF, pz := 0x01FFFFFF }

theorem witness_PositionRoundTrips :
    exec .posdec posdecState = .next (after .posdec posdecState) ∧
    (exec .posenc posencLeast = .next (after .posenc posencLeast) ∧
      (-2 ^ 25 ≤ posencLeast.px.toInt ∧ posencLeast.px.toInt < 2 ^ 25) ∧
      (-2 ^ 11 ≤ posencLeast.py.toInt ∧ posencLeast.py.toInt < 2 ^ 11) ∧
      (-2 ^ 25 ≤ posencLeast.pz.toInt ∧ posencLeast.pz.toInt < 2 ^ 25)) ∧
    exec .posenc posencGreatest = .next (after .posenc posencGreatest) ∧
      (-2 ^ 25 ≤ posencGreatest.px.toInt ∧ posencGreatest.px.toInt < 2 ^ 25) ∧
      (-2 ^ 11 ≤ posencGreatest.py.toInt ∧ posencGreatest.py.toInt < 2 ^ 11) ∧
      (-2 ^ 25 ≤ posencGreatest.pz.toInt ∧ posencGreatest.pz.toInt < 2 ^ 25) :=
  ⟨rfl, ⟨rfl, by decide⟩, rfl, by decide⟩

theorem witness_OutOfRangeCoordinatesAreReduced : exec .posenc posencOut = .next (after .posenc posencOut) := rfl

theorem witness_PositionFieldsAreIsolated :
    exec .posenc posencOut = .next (after .posenc posencOut) ∧
      BitVec.extractLsb' 0 26 (0xFE000001 : BitVec 32) = posencOut.px.extractLsb' 0 26 ∧
      BitVec.extractLsb' 0 26 (0x01FFFFFF : BitVec 32) = posencOut.pz.extractLsb' 0 26 ∧
      BitVec.extractLsb' 0 12 (0xFFFFF000 : BitVec 32) = posencOut.py.extractLsb' 0 12 := ⟨rfl, by decide⟩

theorem witness_TheTwoCodecsAreSeparate :
    exec .decvi decviTooLong = .next (after .decvi decviTooLong) ∧
      exec .posdec posdecState = .next (after .posdec posdecState) := ⟨rfl, rfl⟩

/-- States that differ in every register the command does not read, and in bytes it does not reach. -/
theorem witness_OutcomeDependsOnTheOperandsOnly :
    SameOperands .encvi encviState { encviState with vl := 5, cnt := 3, px := 1, status := 0b101 } ∧
    SameOperands .encvl encvlMin { encvlMin with vi := 1, buf := [] } ∧
    SameOperands .decvi decviTooLong { decviTooLong with buf := Memory.write decviTooLong.buf 5 0xFF, cnt := 2 } ∧
    SameOperands .decvl decvlShort { decvlShort with vl := 4, pw := 1 } ∧
    SameOperands .posenc posencState { posencState with pw := 3, vi := 3 } ∧
    SameOperands .posdec posdecState { posdecState with px := 3, buf := [(0, 1)] } ∧
    SameOperands .reserved5 posdecState encviState ∧ SameOperands .reserved7 posdecState encviState ∧
    Memory.wf encviState.buf = true ∧ Memory.wf (Memory.write decviTooLong.buf 5 0xFF) = true := by
  unfold SameOperands
  decide

theorem witness_RepeatingACommandChangesNothing :
    (∀ i : Instr, exec i encviFull = .next (after i encviFull)) ∧ Memory.wf encviFull.buf = true :=
  ⟨fun i => exec_after i _, by decide⟩

theorem witness_HostRegisterActionsChangeOneRegister :
    15 < (room 4 0).cfg.space ∧ 0 < (room 4 0).cfg.space ∧ 10 + 6 ≤ (room 4 0).cfg.space := by decide

theorem witness_HostBufferActionsWriteTheirBytes :
    Memory.wf (room 4 0).buf = true ∧ 15 < (room 4 0).cfg.space ∧ [(0xAC : Byte), 0x02].length ≤ 2 ∧
      (room 4 0).cfg.space ≤ 16 ∧
      ({ room 4 0 with pending := [.bufset 15 [0xAC, 0x02]] } : State).pending = .bufset 15 [0xAC, 0x02] :: [] ∧
      ({ room 4 0 with pending := [.bufWrite 15 7] } : State).pending = .bufWrite 15 7 :: [] ∧
      ({ room 4 0 with pending := [.bufWrite 16 7] } : State).pending = .bufWrite 16 7 :: [] := by decide

theorem witness_AdvAddsCntToOff :
    ({ holding [] 14 with cnt := 1, pending := [.adv] } : State).pending = .adv :: [] ∧
      (holding [] 14).off + (1 : BitVec 4).toNat < (holding [] 14).cfg.space ∧
      (holding [] 15).cfg.space ≤ (holding [] 15).off + (1 : BitVec 4).toNat := by decide

end Sys2Proof.Tests
end

namespace Sys2Proof.Machine

/-! The invariant (`State.Inv`): one rule for each kind of update that touches a field it speaks of, then the commands,
the host's actions and the step. The invariant reads six fields only, so an update of any other field keeps it by
definition. -/

/-- Bytes written within the index space keep the invariant. -/
theorem State.Inv.writeList {s : State} (h : s.Inv) {a : Nat} {bs : List Byte} (ha : a + bs.length ≤ s.cfg.space) :
    State.Inv { s with buf := Memory.writeList s.buf a bs } := by
  obtain ⟨haw, hoff, hlen, helen, hwf, hbelow⟩ := h
  exact ⟨haw, hoff, hlen, helen, Memory.wf_writeList hwf a bs, Memory.below_writeList hbelow ha⟩

/-- What an encode stores: bytes from `OFF` on that fit below `LEN`, hence within the index space (R44). -/
theorem State.Inv.writeString {s : State} (h : s.Inv) {bs : List Byte} (hb : bs.length ≤ s.len - s.off) :
    State.Inv { s with buf := Memory.writeList s.buf s.off bs } := by
  have ⟨_, hoff, hlen, _⟩ := h
  exact h.writeList (by omega)

theorem State.Inv.setOff {s : State} (h : s.Inv) {n : Nat} (hn : n < s.cfg.space) : State.Inv { s with off := n } :=
  have ⟨haw, _, hrest⟩ := h
  ⟨haw, hn, hrest⟩

theorem State.Inv.setLen {s : State} (h : s.Inv) {n : Nat} (hn : n < s.cfg.space) : State.Inv { s with len := n } :=
  have ⟨haw, hoff, _, hrest⟩ := h
  ⟨haw, hoff, hn, hrest⟩

/-- What a SizeExceeded leaves in `ELEN` is `LEN` (R104). -/
theorem State.Inv.setElenToLen {s : State} (h : s.Inv) : State.Inv { s with elen := s.len } :=
  have ⟨haw, hoff, hlen, _, hmem⟩ := h
  ⟨haw, hoff, hlen, hlen, hmem⟩

/-- Every command keeps the invariant and the configuration. -/
theorem exec_keeps_inv {i : Instr} {s t : State} (h : s.Inv) (e : exec i s = .next t) : t.Inv ∧ t.cfg = s.cfg := by
  cases i with
  | encvi =>
    obtain ⟨hfit, hs⟩ | ⟨_, hs⟩ := encvi_cases s <;> cases hs.symm.trans e
    · exact ⟨h.writeString (by rw [encString_length]; omega), rfl⟩
    · exact ⟨h.writeString (List.length_take_le _ _), rfl⟩
  | encvl =>
    obtain ⟨hfit, hs⟩ | ⟨_, hs⟩ := encvl_cases s <;> cases hs.symm.trans e
    · exact ⟨h.writeString (by rw [encString_length]; omega), rfl⟩
    · exact ⟨h.writeString (List.length_take_le _ _), rfl⟩
  | decvi =>
    obtain ⟨_, _, _, _, _, hs⟩ | ⟨_, _, hs⟩ | ⟨_, _, _, _, _, hs⟩ := decvi_cases s <;> cases hs.symm.trans e
    · exact ⟨h, rfl⟩
    · exact ⟨h.setElenToLen, rfl⟩
    · exact ⟨h, rfl⟩
  | decvl =>
    obtain ⟨_, _, _, _, _, hs⟩ | ⟨_, _, hs⟩ | ⟨_, _, _, _, _, hs⟩ := decvl_cases s <;> cases hs.symm.trans e
    · exact ⟨h, rfl⟩
    · exact ⟨h.setElenToLen, rfl⟩
    · exact ⟨h, rfl⟩
  | posenc => cases (posenc_eq s).symm.trans e; exact ⟨h, rfl⟩
  | posdec => cases (posdec_eq s).symm.trans e; exact ⟨h, rfl⟩
  | reserved5 => cases (reserved5_eq s).symm.trans e; exact ⟨h, rfl⟩
  | reserved7 => cases (reserved7_eq s).symm.trans e; exact ⟨h, rfl⟩

/-- A host register write keeps the invariant: `OFF` and `LEN` take `AW`-bit numbers (R10, R79). -/
theorem writeReg_keeps_inv {s : State} (h : s.Inv) (r : WritableReg) (v : Int) : (writeReg r v s).Inv := by
  cases r with
  | off => exact h.setOff (bvAW_lt _ _)
  | len => exact h.setLen (bvAW_lt _ _)
  | vi | vl | px | py | pz | pw => exact h

/-- `BUFSET` writes as many bytes as the number it puts in `LEN`, which is below `2^AW` (R80). -/
theorem setBuf_keeps_inv {s : State} (h : s.Inv) (n : Nat) (bytes : List Byte) : (setBuf n bytes s).Inv := by
  have hn : bvAW s.cfg n < s.cfg.space := bvAW_lt _ _
  exact (h.writeList (a := 0) (bs := padded (bvAW s.cfg n) bytes) (by rw [padded_length]; omega)).setLen hn

theorem resetBlock_keeps_inv {s : State} (h : s.Inv) : (resetBlock s).Inv :=
  have ⟨haw, _, _, _, hmem⟩ := h
  ⟨haw, Config.space_pos _, Config.space_pos _, Config.space_pos _, hmem⟩

/-- A host byte write keeps the invariant: at `2^AW` or beyond it answers no next state. -/
theorem hostBufWrite_keeps_inv {s t : State} (h : s.Inv) {a : Nat} {b : Byte} (e : hostBufWrite a b s = .next t) :
    t.Inv ∧ t.cfg = s.cfg := by
  rcases Nat.lt_or_ge a s.cfg.space with ha | ha
  · cases (hostBufWrite_of_lt ha b).symm.trans e
    exact ⟨h.writeList (a := a) (bs := [b]) ha, rfl⟩
  · cases (hostBufWrite_of_le ha b).symm.trans e

/-- `BUFGET` changes nothing where it answers a next state. -/
theorem hostBufget_eq {s t : State} {a n : Nat} (e : hostBufget a n s = .next t) : t = s := by
  rcases Nat.lt_or_ge s.cfg.space (a + n) with ha | ha
  · cases (hostBufget_of_lt ha).symm.trans e
  · cases (hostBufget_of_le ha).symm.trans e
    rfl

/-- `ADV` keeps the invariant: the sum where it fits `OFF`, else a free value of `AW` bits (R81, assumption 8). -/
theorem hostAdv_keeps_inv {s t : State} (h : s.Inv) (e : hostAdv s = .next t) : t.Inv ∧ t.cfg = s.cfg := by
  rcases Nat.lt_or_ge (s.off + s.cnt.toNat) s.cfg.space with hsum | hsum
  · cases (hostAdv_of_lt hsum).symm.trans e
    exact ⟨h.setOff hsum, rfl⟩
  · cases (hostAdv_of_le hsum).symm.trans e
    exact ⟨h.setOff s.freeOff_lt, rfl⟩

theorem step_idle {s : State} (h : s.pending = []) : step s = .next s := by rw [step, h]; rfl

theorem step_rd {s : State} {r : ReadableReg} {rest : List HostAction} (h : s.pending = .rd r :: rest) :
    step s = .next (State.withPending rest s) := by rw [step, h]; rfl

theorem step_chk {s : State} {code : BitVec 2} {rest : List HostAction} (h : s.pending = .chk code :: rest) :
    step s = .next (State.withPending rest s) := by rw [step, h]; rfl

/-- Settles O11, by cases on the host's next action: each is one command or one host action on a state that meets the
invariant, since neither taking the action from the list nor writing `CMD` touches a field the invariant reads. -/
theorem everyStepKeepsTheInvariant : Obligations.EveryStepKeepsTheInvariant := by
  intro s t h e
  cases hp : s.pending with
  | nil => cases (step_idle hp).symm.trans e; exact ⟨h, rfl⟩
  | cons action rest =>
    have hrest : (State.withPending rest s).Inv := h
    cases action with
    | command c =>
      exact exec_keeps_inv (s := State.writeCmd c (State.withPending rest s)) h ((step_command hp).symm.trans e)
    | wr r v =>
      cases (step_wr hp).symm.trans e
      exact ⟨writeReg_keeps_inv hrest r v, (writeReg_frame r v _).1⟩
    | rd r => cases (step_rd hp).symm.trans e; exact ⟨hrest, rfl⟩
    | bufWrite a b => exact hostBufWrite_keeps_inv (s := State.withPending rest s) hrest ((step_bufWrite hp).symm.trans e)
    | bufget a n => cases hostBufget_eq ((step_bufget hp).symm.trans e); exact ⟨hrest, rfl⟩
    | bufset n bytes => cases (step_bufset hp).symm.trans e; exact ⟨setBuf_keeps_inv hrest n bytes, rfl⟩
    | adv => exact hostAdv_keeps_inv (s := State.withPending rest s) hrest ((step_adv hp).symm.trans e)
    | chk code => cases (step_chk hp).symm.trans e; exact ⟨hrest, rfl⟩
    | reset => cases (step_reset hp).symm.trans e; exact ⟨resetBlock_keeps_inv hrest, rfl⟩

/-- Settles O10: `AW` is 64 there, the three registers hold 0, and no byte is listed. -/
theorem invariantHoldsAtReset : Obligations.InvariantHoldsAtReset :=
  ⟨by decide, Config.space_pos _, Config.space_pos _, Config.space_pos _, rfl, rfl⟩

/-! The outcome of a command is a function of its operands: for an encode, by what its outcome is field by field; for a
decode, by taking two states that agree on the string through the same of the three outcomes of R106. -/

theorem State.succeed_code (s : State) : s.succeed.code = 0 := by
  rw [State.code, State.succeed_status]
  exact code_after_success _

theorem raise_illegalCommand_code (s : State) : (raise .illegalCommand s).code = 3 := by
  rw [raise_illegalCommand]
  exact (by decide : (0b111#3).extractLsb' 0 2 = 3)

/-- The `CODE` of the status word after a SizeExceeded. -/
theorem code_after_sizeExceeded : (0b101#3).extractLsb' 0 2 = 1 := by decide

/-- The `CODE` of the status word after a BufferUnderrun. -/
theorem code_after_bufferUnderrun : (0b110#3).extractLsb' 0 2 = 2 := by decide

section
variable {w : Nat} (hw : 1 ≤ maxb w) (hw' : maxb w ≤ 15) (v : BitVec w) (s : State)
include hw hw'

/-- An encode changes only bytes of the memory, `CNT` and `STATUS`, at either width. -/
theorem encodeWith_frame :
    encodeWith v s = { s with buf := (encodeWith v s).buf, cnt := (encodeWith v s).cnt,
                              status := (encodeWith v s).status } := by
  rw [encodeWith_eq hw hw']
  split <;> rfl

/-- An encode ends in BufferUnderrun exactly where its string does not fit (R92). -/
theorem encodeWith_code : (encodeWith v s).code = if s.off + encLength v.toNat ≤ s.len then 0 else 2 := by
  rw [encodeWith_eq hw hw']
  split
  · exact code_after_success _
  · exact code_after_bufferUnderrun

theorem encodeWith_cnt :
    (encodeWith v s).cnt = if s.off + encLength v.toNat ≤ s.len then BitVec.ofNat 4 (encLength v.toNat) else s.cnt := by
  rw [encodeWith_eq hw hw']
  split <;> rfl

theorem encodeWith_accessIndex (k : Nat) : (encodeWith v s).accessIndex k = s.accessIndex k := by
  rw [encodeWith_frame hw hw']
  rfl

theorem encodeWith_len : (encodeWith v s).len = s.len := by rw [encodeWith_frame hw hw']

/-- Success or fault, byte `k` of the canonical string stands at `u(OFF) + k` where that is below `LEN` (R89, R92). -/
theorem encodeWith_stringByte (hm : Memory.wf s.buf = true) {k : Nat} (hk : k < encLength v.toNat)
    (hlt : s.accessIndex k < s.len) : (encodeWith v s).stringByte k = encByte v.toNat k := by
  rw [State.stringByte, encodeWith_accessIndex hw hw', State.accessIndex, encodeWith_eq hw hw']
  rw [State.accessIndex] at hlt
  split
  · exact Memory.read_encString hm _ _ _ hk
  · exact Memory.read_encString_take hm _ _ _ _ hk (by omega)

end

section
variable {w : Nat} {s s' : State} (hoff : s.off = s'.off) (hlen : s.len = s'.len)
include hoff hlen

/-- Encodes of one value at the same `OFF` and `LEN` come to the same code, count and stored bytes. -/
theorem encodeWith_congr (hw : 1 ≤ maxb w) (hw' : maxb w ≤ 15) (v : BitVec w) (hm : Memory.wf s.buf = true)
    (hm' : Memory.wf s'.buf = true) :
    (encodeWith v s).code = (encodeWith v s').code ∧
      ((encodeWith v s).code = 0 → (encodeWith v s).cnt = (encodeWith v s').cnt) ∧
      ∀ k, k < encLength v.toNat → (encodeWith v s).accessIndex k < (encodeWith v s).len →
        (encodeWith v s).stringByte k = (encodeWith v s').stringByte k := by
  refine ⟨?code, fun hok => ?cnt, fun k hk hlt => ?byte⟩
  case code => rw [encodeWith_code hw hw', encodeWith_code hw hw', hoff, hlen]
  case cnt =>
    have hfit : s.off + encLength v.toNat ≤ s.len := by
      by_contra hfit
      rw [encodeWith_code hw hw', if_neg hfit] at hok
      exact absurd hok (by decide)
    rw [encodeWith_cnt hw hw', encodeWith_cnt hw hw', ← hoff, ← hlen, if_pos hfit, if_pos hfit]
  case byte =>
    rw [encodeWith_accessIndex hw hw', encodeWith_len hw hw'] at hlt
    have hlt' : s'.accessIndex k < s'.len := by rwa [State.accessIndex, ← hoff, ← hlen]
    rw [encodeWith_stringByte hw hw' v s hm hk hlt, encodeWith_stringByte hw hw' v s' hm' hk hlt']

/-- Decodes of the same bytes at the same `OFF` and `LEN` come to the same one of the three outcomes of R106, with the
same value and count or the same payload. -/
theorem decodeWith_congr (put : BitVec w → State → State) (hm : maxb w < 15) (hp : 0 < maxb w)
    (hbytes : ∀ k, k < maxb w → s.stringByte k = s'.stringByte k) :
    (∃ v c, decodeWith put s = ({ put v s with cnt := c }).succeed ∧
        decodeWith put s' = ({ put v s' with cnt := c }).succeed) ∨
      (∃ acc, decodeWith put s = { s with eval := acc, elen := s.len, status := 0b101#3 } ∧
        decodeWith put s' = { s' with eval := acc, elen := s'.len, status := 0b101#3 }) ∨
      (decodeWith put s = { s with status := 0b110#3 } ∧ decodeWith put s' = { s' with status := 0b110#3 }) := by
  have hidx : ∀ k, s'.accessIndex k = s.accessIndex k := fun k => by rw [State.accessIndex, ← hoff]; rfl
  have hcont : ∀ n, n ≤ maxb w → (∀ k, k < n → contBit (s.stringByte k) = true) →
      ∀ k, k < n → contBit (s'.stringByte k) = true :=
    fun n hn hc k hk => by rw [← hbytes k (by omega)]; exact hc k hk
  have hin : ∀ n, (∀ k, k < n → s.accessIndex k < s.len) → ∀ k, k < n → s'.accessIndex k < s'.len :=
    fun n hi k hk => by rw [hidx, ← hlen]; exact hi k hk
  have hval : ∀ n, n ≤ maxb w → s'.stringValue w n = s.stringValue w n :=
    fun n hn => State.stringValue_congr fun k hk => (hbytes k (by omega)).symm
  obtain ⟨n, hn, hc, hend, hi, e⟩ | ⟨hc, hi, e⟩ | ⟨n, hn, hc, hi, hout, e⟩ := decodeWith_cases put s hm hp
  · have e' := decodeWith_terminated put (s := s') hm.le hn (hcont n hn.le hc) (by rwa [← hbytes n hn])
      (by rwa [hidx, ← hlen])
    rw [hval (n + 1) hn] at e'
    exact .inl ⟨_, _, e, e'⟩
  · have e' := decodeWith_sizeExceeded put (s := s') hm hp (hcont _ le_rfl hc) (hin _ hi)
    rw [hval _ le_rfl] at e'
    exact .inr (.inl ⟨_, e, e'⟩)
  · have e' := decodeWith_underrun put (s := s') hm.le hn (hcont n hn.le hc) (hin n hi) (by rwa [hidx, ← hlen])
    exact .inr (.inr ⟨e, e'⟩)

/-- Two such decodes end with the same code; it says which results the two share (R38, R104). -/
theorem decodeWith_congr_code (put : BitVec w → State → State) (hm : maxb w < 15) (hp : 0 < maxb w)
    (hbytes : ∀ k, k < maxb w → s.stringByte k = s'.stringByte k) :
    (decodeWith put s).code = (decodeWith put s').code ∧
      ((decodeWith put s).code = 0 → ∃ v c, decodeWith put s = ({ put v s with cnt := c }).succeed ∧
        decodeWith put s' = ({ put v s' with cnt := c }).succeed) ∧
      ((decodeWith put s).code = 1 → (decodeWith put s).eval = (decodeWith put s').eval ∧
        (decodeWith put s).elen = (decodeWith put s').elen) := by
  obtain ⟨v, c, e, e'⟩ | ⟨acc, e, e'⟩ | ⟨e, e'⟩ := decodeWith_congr hoff hlen put hm hp hbytes
  · have hcode : (decodeWith put s).code = 0 := by rw [e, State.succeed_code]
    refine ⟨by rw [hcode, e', State.succeed_code], fun _ => ⟨v, c, e, e'⟩, fun h1 => ?_⟩
    exact absurd (hcode.symm.trans h1) (by decide)
  · have hcode : (decodeWith put s).code = 1 := by rw [e]; exact code_after_sizeExceeded
    refine ⟨by rw [e, e']; rfl, fun h0 => ?_, fun _ => by rw [e, e']; exact ⟨rfl, hlen⟩⟩
    exact absurd (hcode.symm.trans h0) (by decide)
  · have hcode : (decodeWith put s).code = 2 := by rw [e]; exact code_after_bufferUnderrun
    refine ⟨by rw [e, e']; rfl, fun h0 => ?_, fun h1 => ?_⟩
    · exact absurd (hcode.symm.trans h0) (by decide)
    · exact absurd (hcode.symm.trans h1) (by decide)

end

/-- Settles O46, command by command. -/
theorem outcomeDependsOnTheOperandsOnly : Obligations.OutcomeDependsOnTheOperandsOnly := by
  intro i s s' hm hm' h
  cases i with
  | encvi =>
    obtain ⟨hvi, hoff, hlen⟩ := h
    refine ⟨encodeWith s.vi s, encodeWith s.vi s', rfl, by rw [hvi]; rfl, ?_⟩
    obtain ⟨hcode, hcnt, hbyte⟩ := encodeWith_congr hoff hlen (by decide) (by decide) s.vi hm hm'
    have hkept : (encodeWith s.vi s).vi = s.vi := by rw [encodeWith_frame (by decide) (by decide)]
    exact ⟨hcode, hcnt, by rwa [hkept]⟩
  | encvl =>
    obtain ⟨hvl, hoff, hlen⟩ := h
    refine ⟨encodeWith s.vl s, encodeWith s.vl s', rfl, by rw [hvl]; rfl, ?_⟩
    obtain ⟨hcode, hcnt, hbyte⟩ := encodeWith_congr hoff hlen (by decide) (by decide) s.vl hm hm'
    have hkept : (encodeWith s.vl s).vl = s.vl := by rw [encodeWith_frame (by decide) (by decide)]
    exact ⟨hcode, hcnt, by rwa [hkept]⟩
  | decvi =>
    obtain ⟨hoff, hlen, hbytes⟩ := h
    obtain ⟨hcode, hok, hsize⟩ := decodeWith_congr_code hoff hlen State.putVi (by decide) (by decide) hbytes
    refine ⟨_, _, rfl, rfl, hcode, fun h0 => ?_, hsize⟩
    obtain ⟨v, c, e, e'⟩ := hok h0
    rw [e, e']
    exact ⟨rfl, rfl⟩
  | decvl =>
    obtain ⟨hoff, hlen, hbytes⟩ := h
    obtain ⟨hcode, hok, hsize⟩ := decodeWith_congr_code hoff hlen State.putVl (by decide) (by decide) hbytes
    refine ⟨_, _, rfl, rfl, hcode, fun h0 => ?_, hsize⟩
    obtain ⟨v, c, e, e'⟩ := hok h0
    rw [e, e']
    exact ⟨rfl, rfl⟩
  | posenc =>
    obtain ⟨hx, hy, hz⟩ := h
    refine ⟨_, _, posenc_eq s, posenc_eq s', ?_, ?_⟩
    · exact (code_after_success _).trans (code_after_success _).symm
    · rw [hx, hy, hz]
  | posdec =>
    have hpw : s.pw = s'.pw := h
    refine ⟨_, _, posdec_eq s, posdec_eq s', ?_, ?_⟩
    · exact (code_after_success _).trans (code_after_success _).symm
    · rw [hpw]
      exact ⟨rfl, rfl, rfl⟩
  | reserved5 =>
    exact ⟨_, _, reserved5_eq s, reserved5_eq s',
      (raise_illegalCommand_code s).trans (raise_illegalCommand_code s').symm⟩
  | reserved7 =>
    exact ⟨_, _, reserved7_eq s, reserved7_eq s',
      (raise_illegalCommand_code s).trans (raise_illegalCommand_code s').symm⟩

end Sys2Proof.Machine

namespace Sys2Proof.Machine

/-! What a command writes (R37, R38). For each VarInt/VarLong unit: what it has written where it ends with `CODE` 0, and
where it ends with another; then the same for every command. -/

/-- At most `n` bytes written from `OFF` on reach only the first `n` indices a command accesses (R44). -/
theorem State.read_writeList_outside {s : State} {n a : Nat} {bs : List Byte} (hb : bs.length ≤ n)
    (ha : s.outside n a) : Memory.read (Memory.writeList s.buf s.off bs) a = Memory.read s.buf a := by
  rw [State.outside_iff] at ha
  exact Memory.read_writeList_other _ _ _ (by omega)

section
variable {w : Nat} (hw : 1 ≤ maxb w) (hw' : maxb w ≤ 15) {v : BitVec w} {s : State}
include hw hw'

/-- A successful encode writes bytes of its string, `CNT` and `CODE` (R38). -/
theorem encodeWith_success (hok : (encodeWith v s).code = 0) :
    encodeWith v s = { s with buf := (encodeWith v s).buf, cnt := (encodeWith v s).cnt,
                              status := s.status &&& 0b100#3 } ∧
      ∀ a, s.outside (encLength v.toNat) a → Memory.read (encodeWith v s).buf a = Memory.read s.buf a := by
  have hfit : s.off + encLength v.toNat ≤ s.len := by
    by_contra hfit
    rw [encodeWith_code hw hw', if_neg hfit] at hok
    exact absurd hok (by decide)
  rw [encodeWith_eq hw hw', if_pos hfit]
  exact ⟨rfl, fun a ha => State.read_writeList_outside (encString_length _).le ha⟩

/-- A faulting encode ends in BufferUnderrun with some first bytes of its string written (R37, R92). -/
theorem encodeWith_fault (hc : (encodeWith v s).code ≠ 0) :
    ∃ bs : List Byte, bs.length ≤ s.len - s.off ∧
      encodeWith v s = { s with buf := Memory.writeList s.buf s.off bs, status := 0b110#3 } := by
  have hfit : ¬ s.off + encLength v.toNat ≤ s.len := fun hfit =>
    hc (by rw [encodeWith_code hw hw', if_pos hfit])
  exact ⟨_, List.length_take_le _ _, by rw [encodeWith_eq hw hw', if_neg hfit]⟩

/-- With no byte from `OFF` on, an encode faults on its first access. -/
theorem encodeWith_of_no_room (h : s.len ≤ s.off) : encodeWith v s = { s with status := 0b110#3 } := by
  have hpos := encLength_pos v.toNat
  rw [encodeWith_eq hw hw', if_neg (by omega), Nat.sub_eq_zero_of_le h]
  rfl

end

section
variable {w : Nat} (hm : maxb w < 15) (hp : 0 < maxb w) (put : BitVec w → State → State) {s : State}
include hm hp

/-- A successful decode writes its result register, `CNT` and `CODE` (R38). -/
theorem decodeWith_success (hok : (decodeWith put s).code = 0) :
    ∃ v c, decodeWith put s = { put v s with cnt := c, status := (put v s).status &&& 0b100#3 } := by
  obtain ⟨_, hresult, _⟩ := decodeWith_congr_code (s := s) rfl rfl put hm hp fun _ _ => rfl
  obtain ⟨v, c, e, _⟩ := hresult hok
  exact ⟨v, c, e.trans (State.succeed_eq _)⟩

/-- A faulting decode ends in SizeExceeded with its payload, or in BufferUnderrun (R37). -/
theorem decodeWith_fault (hc : (decodeWith put s).code ≠ 0) :
    (∃ acc, decodeWith put s = { s with eval := acc, elen := s.len, status := 0b101#3 }) ∨
      decodeWith put s = { s with status := 0b110#3 } := by
  obtain ⟨v, c, e, _⟩ | ⟨acc, e, _⟩ | ⟨e, _⟩ := decodeWith_congr (s := s) rfl rfl put hm hp fun _ _ => rfl
  · exact absurd (by rw [e, State.succeed_code]) hc
  · exact .inl ⟨acc, e⟩
  · exact .inr e

/-- With no byte from `OFF` on, a decode faults on its first access. -/
theorem decodeWith_of_no_room (h : s.len ≤ s.off) : decodeWith put s = { s with status := 0b110#3 } :=
  decodeWith_underrun put hm.le hp (fun k hk => absurd hk k.not_lt_zero) (fun k hk => absurd hk k.not_lt_zero) h

end

/-- Settles O20, command by command. -/
theorem successfulCommandWritesItsResultsOnly : Obligations.SuccessfulCommandWritesItsResultsOnly := by
  intro s t
  refine ⟨?encvi, ?encvl, ?decvi, ?decvl, ?posenc, ?posdec⟩
  case encvi => rintro ⟨⟩ hok; exact encodeWith_success (by decide) (by decide) hok
  case encvl => rintro ⟨⟩ hok; exact encodeWith_success (by decide) (by decide) hok
  case decvi =>
    rintro ⟨⟩ hok
    obtain ⟨v, c, e⟩ := decodeWith_success (by decide) (by decide) State.putVi hok
    rw [e]
    rfl
  case decvl =>
    rintro ⟨⟩ hok
    obtain ⟨v, c, e⟩ := decodeWith_success (by decide) (by decide) State.putVl hok
    rw [e]
    rfl
  case posenc => intro e; cases (posenc_eq s).symm.trans e; rfl
  case posdec => intro e; cases (posdec_eq s).symm.trans e; rfl

/-- Everything a faulting command can have done (R37): SizeExceeded with its payload, BufferUnderrun with the bytes an
encode had written, BufferUnderrun in a decode, IllegalCommand. -/
theorem exec_fault {i : Instr} {s t : State} (e : exec i s = .next t) (hc : t.code ≠ 0) :
    (∃ acc, t = { s with eval := acc, elen := s.len, status := 0b101#3 }) ∨
      ((i = .encvi ∨ i = .encvl) ∧ ∃ bs : List Byte, bs.length ≤ s.len - s.off ∧
        t = { s with buf := Memory.writeList s.buf s.off bs, status := 0b110#3 }) ∨
      t = { s with status := 0b110#3 } ∨ t = { s with status := 0b111#3 } := by
  cases i with
  | encvi => cases e; exact .inr (.inl ⟨.inl rfl, encodeWith_fault (by decide) (by decide) hc⟩)
  | encvl => cases e; exact .inr (.inl ⟨.inr rfl, encodeWith_fault (by decide) (by decide) hc⟩)
  | decvi => cases e; exact (decodeWith_fault (by decide) (by decide) State.putVi hc).imp_right fun h => .inr (.inl h)
  | decvl => cases e; exact (decodeWith_fault (by decide) (by decide) State.putVl hc).imp_right fun h => .inr (.inl h)
  | posenc => cases e; exact absurd (State.succeed_code _) hc
  | posdec => cases e; exact absurd (State.succeed_code _) hc
  | reserved5 => cases e; exact .inr (.inr (.inr (raise_illegalCommand s)))
  | reserved7 => cases e; exact .inr (.inr (.inr (raise_illegalCommand s)))

/-- Settles O19, by cases on the fault. -/
theorem faultingCommandKeepsTheRegisters : Obligations.FaultingCommandKeepsTheRegisters := by
  intro i s t e hc
  obtain ⟨acc, rfl⟩ | ⟨hi, bs, hb, rfl⟩ | rfl | rfl := exec_fault e hc
  · exact ⟨rfl, fun h => absurd code_after_sizeExceeded h, fun h => absurd rfl h, fun _ _ => rfl⟩
  · exact ⟨rfl, fun _ => ⟨rfl, rfl⟩, fun _ => ⟨hi, code_after_bufferUnderrun⟩,
      fun _ ha => State.read_writeList_outside hb ha⟩
  · exact ⟨rfl, fun _ => ⟨rfl, rfl⟩, fun h => absurd rfl h, fun _ _ => rfl⟩
  · exact ⟨rfl, fun _ => ⟨rfl, rfl⟩, fun h => absurd rfl h, fun _ _ => rfl⟩

/-! `STATUS`: what a command leaves in it, and that none reads it (R28). -/

/-- What a successful command leaves in `STATUS`: `FSEEN` as it was and `CODE` 0. -/
theorem exec_success_status {i : Instr} {s t : State} (e : exec i s = .next t) (hok : t.code = 0) :
    t.status = s.status &&& 0b100#3 := by
  obtain ⟨hencvi, hencvl, hdecvi, hdecvl, hposenc, hposdec⟩ := successfulCommandWritesItsResultsOnly s t
  cases i with
  | encvi => exact congrArg State.status (hencvi e hok).1
  | encvl => exact congrArg State.status (hencvl e hok).1
  | decvi => exact congrArg State.status (hdecvi e hok)
  | decvl => exact congrArg State.status (hdecvl e hok)
  | posenc => exact congrArg State.status (hposenc e)
  | posdec => exact congrArg State.status (hposdec e)
  | reserved5 => cases e; exact absurd ((raise_illegalCommand_code s).symm.trans hok) (by decide)
  | reserved7 => cases e; exact absurd ((raise_illegalCommand_code s).symm.trans hok) (by decide)

theorem exec_fault_fseen {i : Instr} {s t : State} (e : exec i s = .next t) (hc : t.code ≠ 0) : t.fseen = true := by
  obtain ⟨_, rfl⟩ | ⟨_, _, _, rfl⟩ | rfl | rfl := exec_fault e hc <;> simp [State.fseen]

/-- The two states hold the same `CODE` and differ in `STATUS` at most. -/
def SameButFseen (t t' : State) : Prop := t'.code = t.code ∧ t' = { t with status := t'.status }

theorem succeed_sameButFseen (s : State) (x : BitVec 3) : SameButFseen s.succeed { s with status := x }.succeed :=
  ⟨(State.succeed_code _).trans (State.succeed_code _).symm, rfl⟩

theorem encodeWith_sameButFseen {w : Nat} (hw : 1 ≤ maxb w) (hw' : maxb w ≤ 15) (v : BitVec w) (s : State)
    (x : BitVec 3) : SameButFseen (encodeWith v s) (encodeWith v { s with status := x }) := by
  refine ⟨by rw [encodeWith_code hw hw', encodeWith_code hw hw'], ?_⟩
  simp only [encodeWith_eq hw hw']
  split <;> rfl

/-- `hput`: writing the result register leaves `STATUS` alone. -/
theorem decodeWith_sameButFseen {w : Nat} (hm : maxb w < 15) (hp : 0 < maxb w) {put : BitVec w → State → State}
    {s : State} {x : BitVec 3} (hput : ∀ v, put v { s with status := x } = { put v s with status := x }) :
    SameButFseen (decodeWith put s) (decodeWith put { s with status := x }) := by
  obtain ⟨v, c, e, e'⟩ | ⟨acc, e, e'⟩ | ⟨e, e'⟩ :=
    decodeWith_congr (s := s) (s' := { s with status := x }) rfl rfl put hm hp fun _ _ => rfl
  · rw [e, e', hput]
    exact succeed_sameButFseen { put v s with cnt := c } x
  · rw [e, e']
    exact ⟨rfl, rfl⟩
  · rw [e, e']
    exact ⟨rfl, rfl⟩

theorem raise_illegalCommand_sameButFseen (s : State) (x : BitVec 3) :
    SameButFseen (raise .illegalCommand s) (raise .illegalCommand { s with status := x }) := by
  rw [raise_illegalCommand, raise_illegalCommand]
  exact ⟨rfl, rfl⟩

/-- No command reads `STATUS`. -/
theorem exec_sameButFseen {i : Instr} {s t : State} (e : exec i s = .next t) (x : BitVec 3) :
    ∃ t', exec i { s with status := x } = .next t' ∧ SameButFseen t t' := by
  cases i with
  | encvi => cases e; exact ⟨_, rfl, encodeWith_sameButFseen (by decide) (by decide) s.vi s x⟩
  | encvl => cases e; exact ⟨_, rfl, encodeWith_sameButFseen (by decide) (by decide) s.vl s x⟩
  | decvi => cases e; exact ⟨_, rfl, decodeWith_sameButFseen (by decide) (by decide) fun _ => rfl⟩
  | decvl => cases e; exact ⟨_, rfl, decodeWith_sameButFseen (by decide) (by decide) fun _ => rfl⟩
  | posenc => cases e; exact ⟨_, rfl, succeed_sameButFseen _ x⟩
  | posdec => cases e; exact ⟨_, rfl, succeed_sameButFseen _ x⟩
  | reserved5 => cases e; exact ⟨_, rfl, raise_illegalCommand_sameButFseen s x⟩
  | reserved7 => cases e; exact ⟨_, rfl, raise_illegalCommand_sameButFseen s x⟩

/-- Settles O16: `FSEEN` by what a fault and a success each leave in `STATUS`. -/
theorem statusIsWrittenByEveryCommandAndReadByNone : Obligations.StatusIsWrittenByEveryCommandAndReadByNone := by
  intro i s t e
  refine ⟨exec_fault_fseen e, fun hok => ?_, exec_sameButFseen e⟩
  rw [State.fseen, exec_success_status e hok]
  exact fseen_after_success _

/-! The two codecs (R36). A command that commutes with every change of some registers does not read them; and taking for
the change the values they hold already, it does not write them. -/

section
variable (x y z : BitVec 32) (p : BitVec 64)

theorem encodeWith_withPositionRegs {w : Nat} (hw : 1 ≤ maxb w) (hw' : maxb w ≤ 15) (v : BitVec w) (s : State) :
    encodeWith v (s.withPositionRegs x y z p) = (encodeWith v s).withPositionRegs x y z p := by
  simp only [encodeWith_eq hw hw', State.withPositionRegs]
  split <;> rfl

/-- `hput`: the result register is none of the Position registers. -/
theorem decodeWith_withPositionRegs {w : Nat} (hm : maxb w < 15) (hp : 0 < maxb w) {put : BitVec w → State → State}
    {s : State} (hput : ∀ v, put v (s.withPositionRegs x y z p) = (put v s).withPositionRegs x y z p) :
    decodeWith put (s.withPositionRegs x y z p) = (decodeWith put s).withPositionRegs x y z p := by
  obtain ⟨v, c, e, e'⟩ | ⟨acc, e, e'⟩ | ⟨e, e'⟩ :=
    decodeWith_congr (s := s) (s' := s.withPositionRegs x y z p) rfl rfl put hm hp fun _ _ => rfl
  · rw [e, e', hput]
    rfl
  · rw [e, e']
    rfl
  · rw [e, e']
    rfl

theorem exec_withPositionRegs {i : Instr} {s t : State} (hi : i = .encvi ∨ i = .encvl ∨ i = .decvi ∨ i = .decvl)
    (e : exec i s = .next t) :
    exec i (s.withPositionRegs x y z p) = .next (t.withPositionRegs x y z p) := by
  obtain rfl | rfl | rfl | rfl := hi <;> cases e <;> refine congrArg Host.Outcome.next ?_
  · exact encodeWith_withPositionRegs x y z p (by decide) (by decide) s.vi s
  · exact encodeWith_withPositionRegs x y z p (by decide) (by decide) s.vl s
  · exact decodeWith_withPositionRegs x y z p (by decide) (by decide) fun _ => rfl
  · exact decodeWith_withPositionRegs x y z p (by decide) (by decide) fun _ => rfl

end

theorem exec_withVarintPart {i : Instr} {s t : State} (hi : i = .posenc ∨ i = .posdec) (e : exec i s = .next t)
    (v : State) : exec i (State.withVarintPart v s) = .next (State.withVarintPart v t) := by
  obtain rfl | rfl := hi <;> cases e <;> rfl

/-- Settles O45. -/
theorem theTwoCodecsAreSeparate : Obligations.TheTwoCodecsAreSeparate := by
  refine ⟨fun i s t hi e => ⟨?_, fun x y z p => exec_withPositionRegs x y z p hi e⟩,
    fun i s t hi e => ⟨?_, exec_withVarintPart hi e⟩⟩
  · have hself : t = t.withPositionRegs s.px s.py s.pz s.pw :=
      Host.Outcome.next.inj (e.symm.trans (exec_withPositionRegs s.px s.py s.pz s.pw hi e))
    rw [hself]
    exact ⟨rfl, rfl, rfl, rfl⟩
  · have hself : t = State.withVarintPart s t :=
      Host.Outcome.next.inj (e.symm.trans (exec_withVarintPart hi e s))
    rw [hself]
    exact ⟨rfl, rfl, rfl, rfl, rfl, rfl, rfl, rfl⟩

/-! Issuing a command (R30). -/

theorem exec_answers_next (i : Instr) (s : State) : ∃ t, exec i s = .next t := by
  cases i <;> exact ⟨_, rfl⟩

/-- No command writes `CMD` or takes a host action from the list. -/
theorem exec_keeps_cmd_pending {i : Instr} {s t : State} (e : exec i s = .next t) :
    t.cmd = s.cmd ∧ t.pending = s.pending := by
  cases i with
  | encvi => obtain ⟨_, hs⟩ | ⟨_, hs⟩ := encvi_cases s <;> cases hs.symm.trans e <;> exact ⟨rfl, rfl⟩
  | encvl => obtain ⟨_, hs⟩ | ⟨_, hs⟩ := encvl_cases s <;> cases hs.symm.trans e <;> exact ⟨rfl, rfl⟩
  | decvi =>
    obtain ⟨_, _, _, _, _, hs⟩ | ⟨_, _, hs⟩ | ⟨_, _, _, _, _, hs⟩ := decvi_cases s <;> cases hs.symm.trans e <;>
      exact ⟨rfl, rfl⟩
  | decvl =>
    obtain ⟨_, _, _, _, _, hs⟩ | ⟨_, _, hs⟩ | ⟨_, _, _, _, _, hs⟩ := decvl_cases s <;> cases hs.symm.trans e <;>
      exact ⟨rfl, rfl⟩
  | posenc => cases e; exact ⟨rfl, rfl⟩
  | posdec => cases e; exact ⟨rfl, rfl⟩
  | reserved5 => cases e; exact ⟨raise_cmd _ s, raise_pending _ s⟩
  | reserved7 => cases e; exact ⟨raise_cmd _ s, raise_pending _ s⟩

/-- Settles O3: the step is the command's, and no command changes `CMD`. -/
theorem writingCmdRunsTheCommandItNames : Obligations.WritingCmdRunsTheCommandItNames := by
  refine ⟨fun s c rest hp => ⟨step_command hp, ?_⟩, rfl⟩
  obtain ⟨t, e⟩ := exec_answers_next (decodeCommand c) (State.writeCmd c (State.withPending rest s))
  exact ⟨t, (step_command hp).trans e, exec_keeps_cmd_pending e⟩

/-- A number decodes exactly when it fits `CMD`, to the command of its three bits. -/
theorem decodeTableWord_eq_some_iff (n w : Nat) (i : Instr) :
    decodeTableWord n w = some i ↔ commandWordFits w = true ∧ decodeCommand (BitVec.ofNat 3 w) = i := by
  cases h : commandWordFits w <;> simp [decodeTableWord, decodeWord, h, Except.toOption]

/-- Settles O4: a word that decodes fits `CMD`, so it is set as the host's next action. -/
theorem fetchWordIsTheNextCommand : Obligations.FetchWordIsTheNextCommand := by
  intro s n w i hd
  obtain ⟨hfits, rfl⟩ := (decodeTableWord_eq_some_iff n w i).1 hd
  rw [State.withFetchWord, if_pos hfits]
  exact step_command rfl

/-- Settles O9: with `OFF` and `LEN` 0, no byte stands from `OFF` on. -/
theorem resetStateHasEveryRegisterZero : Obligations.ResetStateHasEveryRegisterZero := by
  refine ⟨rfl, rfl, rfl, rfl, rfl, rfl, rfl, rfl, rfl, rfl, rfl, rfl, rfl, rfl, rfl, fun i hi => ?_⟩
  have hroom : State.reset.len ≤ State.reset.off := le_rfl
  obtain rfl | rfl | rfl | rfl := hi <;> refine congrArg Host.Outcome.next ?_
  · exact encodeWith_of_no_room (by decide) (by decide) hroom
  · exact encodeWith_of_no_room (by decide) (by decide) hroom
  · exact decodeWith_of_no_room (by decide) (by decide) State.putVi hroom
  · exact decodeWith_of_no_room (by decide) (by decide) State.putVl hroom

end Sys2Proof.Machine

namespace Sys2Proof.Machine

/-! The byte buffer (R44 to R48): a single access, the pass that makes it, and all the accesses of an encode. -/

/-- A pass of the decoder whose read is at or beyond `u(LEN)` ends the command (R45, R47), whatever the working
registers hold. -/
theorem vdPass_of_len_le {w : Nat} (put : BitVec w → State → State) {r : VdRegs w} {s : State}
    (h : s.len ≤ s.off + r.i.toNat) : vdPass put r s = .finished { s with status := 0b110#3 } := by
  simp only [vdPass, State.accessIndex, State.memRead_of_le h, raise_bufferUnderrun]

/-- Settles O12: the two accesses by the rules of the memory, the two passes by their underrun rules. -/
theorem bufferAccessIsBoundedByLen : Obligations.BufferAccessIsBoundedByLen := by
  refine ⟨?read, ?beyond, ?write, ?decodePass, ?encodePass⟩
  case read => exact fun s a h => State.memRead_of_lt h
  case beyond => exact fun s a h => ⟨State.memRead_of_le h, State.memWrite_of_le h⟩
  case write =>
    exact fun s a b hwf h => ⟨_, State.memWrite_of_lt h b, rfl, Memory.wf_write hwf a b,
      Memory.read_write_same hwf a b, fun _ hne => Memory.read_write_other s.buf b hne⟩
  case decodePass => exact fun w put r s h => vdPass_of_len_le put h
  case encodePass => exact fun w r s h => vePass_underrun h

/-- Success or fault, an encode writes the bytes of its string that stand below `LEN` (R89, R92). -/
theorem encodeWith_buf {w : Nat} (hw : 1 ≤ maxb w) (hw' : maxb w ≤ 15) (v : BitVec w) (s : State) :
    (encodeWith v s).buf = Memory.writeList s.buf s.off ((encString v.toNat).take (s.len - s.off)) := by
  rw [encodeWith_eq hw hw']
  split
  case isTrue hfit => rw [List.take_of_length_le (by rw [encString_length]; omega)]
  case isFalse => rfl

/-- Of the first `n` indices a command accesses, those below `LEN` are the first `n`, or as many as `LEN` leaves. -/
theorem State.outside_of_ne_below_len {s : State} {n a : Nat}
    (h : ∀ k, k < n → s.accessIndex k < s.len → a ≠ s.accessIndex k) : s.outside (min n (s.len - s.off)) a :=
  fun k hk => h k (by omega) (by rw [State.accessIndex]; omega)

/-- The frame of an encode, success or fault, at either width. -/
theorem encodeWith_changes_only {w : Nat} (hw : 1 ≤ maxb w) (hw' : maxb w ≤ 15) (v : BitVec w) (s : State) :
    encodeWith v s = { s with buf := (encodeWith v s).buf, cnt := (encodeWith v s).cnt,
                              status := (encodeWith v s).status } ∧
      ∀ a, (∀ k, k < encLength v.toNat → s.accessIndex k < s.len → a ≠ s.accessIndex k) →
        Memory.read (encodeWith v s).buf a = Memory.read s.buf a := by
  refine ⟨encodeWith_frame hw hw' v s, fun a ha => ?_⟩
  rw [encodeWith_buf hw hw']
  refine State.read_writeList_outside ?_ (State.outside_of_ne_below_len ha)
  rw [List.length_take, encString_length, Nat.min_comm]

/-- Settles O23, at each of the two widths. -/
theorem encodeChangesOnlyItsStringCntAndStatus : Obligations.EncodeChangesOnlyItsStringCntAndStatus := by
  refine fun s t => ⟨?encvi, ?encvl⟩
  case encvi => rintro ⟨⟩; exact encodeWith_changes_only (by decide) (by decide) s.vi s
  case encvl => rintro ⟨⟩; exact encodeWith_changes_only (by decide) (by decide) s.vl s

/-- Settles O13: `LEN` is below `2^AW`, so an index at `2^AW` or beyond is beyond `LEN`. -/
theorem indicesDoNotWrap : Obligations.IndicesDoNotWrap := by
  rintro s k ⟨_, _, hlen, _⟩
  refine ⟨rfl, fun hk => ?_⟩
  have hout : s.len ≤ s.accessIndex k := hlen.le.trans hk
  exact ⟨State.memRead_of_le hout, State.memWrite_of_le hout⟩

end Sys2Proof.Machine

namespace Sys2Proof.Machine

/-! The length of an encoded string (R60, R62, R94). -/

/-- More than `n` groups are needed for a value that `n` groups do not hold. -/
theorem lt_encLength {U n : Nat} (h : 2 ^ (7 * n) ≤ U) : n < encLength U := by
  by_contra hle
  have hmono : 2 ^ (7 * encLength U) ≤ 2 ^ (7 * n) := Nat.pow_le_pow_right (by omega) (by omega)
  exact absurd (lt_pow_encLength U) (by omega)

/-- The last byte of a canonical string is its last group, the continuation bit clear (R83). -/
theorem encByte_last_toNat (U : Nat) :
    (encByte U (encLength U - 1)).toNat = U / 2 ^ (7 * (encLength U - 1)) := by
  have hpos := encLength_pos U
  have hgroup : U / 2 ^ (7 * (encLength U - 1)) < 128 := by
    have hlt := lt_pow_encLength U
    rw [show 7 * encLength U = 7 * (encLength U - 1) + 7 by omega, pow_add] at hlt
    exact Nat.div_lt_of_lt_mul hlt
  have hlast : ¬ encLength U - 1 + 1 < encLength U := by omega
  have happend : ∀ p : BitVec 7, (BitVec.ofBool false ++ p).toNat = p.toNat := by decide
  rw [encByte, decide_eq_false hlast, happend, BitVec.toNat_ofNat, Nat.shiftRight_eq_div_pow,
    Nat.mod_eq_of_lt hgroup]

/-- The last byte of a canonical string of two or more bytes is not 0: the string is minimal (R94). -/
theorem encByte_last_ne_zero {U : Nat} (h : 2 ≤ encLength U) : encByte U (encLength U - 1) ≠ 0 := by
  have hbig : 2 ^ (7 * (encLength U - 1)) ≤ U := by
    by_contra hlt
    have := encLength_le (U := U) (n := encLength U - 1) (by omega) (by omega)
    omega
  intro hzero
  have hdiv := encByte_last_toNat U
  rw [hzero] at hdiv
  exact absurd (Nat.div_pos hbig (Nat.two_pow_pos _)) (by simp [← hdiv])

/-- `MAXB(W)` groups hold every value of the width (R7). -/
theorem toNat_lt_pow_maxb {w : Nat} (v : BitVec w) : v.toNat < 2 ^ (7 * maxb w) :=
  lt_of_lt_of_le v.isLt (Nat.pow_le_pow_right (by omega) (by simp only [maxb]; omega))

section
variable {w : Nat} (hw : 1 ≤ maxb w) (hw' : maxb w ≤ 15) {v : BitVec w} {s : State}
include hw hw'

theorem fits_of_encodeWith_success (hok : (encodeWith v s).code = 0) : s.off + encLength v.toNat ≤ s.len := by
  by_contra hfit
  rw [encodeWith_code hw hw', if_neg hfit] at hok
  exact absurd hok (by decide)

/-- A successful encode leaves the length of its string in `CNT` (R25). -/
theorem encodeWith_success_cnt (hok : (encodeWith v s).code = 0) :
    (encodeWith v s).cnt.toNat = encLength v.toNat := by
  have hle := encLength_le hw (toNat_lt_pow_maxb v)
  rw [encodeWith_cnt hw hw', if_pos (fits_of_encodeWith_success hw hw' hok), ofNat4_toNat (by omega)]

/-- After a successful encode byte `k` of the string stands at `u(OFF) + k` (R89). -/
theorem encodeWith_success_read (hm : Memory.wf s.buf = true) (hok : (encodeWith v s).code = 0) {k : Nat}
    (hk : k < encLength v.toNat) : Memory.read (encodeWith v s).buf (s.accessIndex k) = encByte v.toNat k := by
  have hfit := fits_of_encodeWith_success hw hw' hok
  rw [← encodeWith_accessIndex hw hw' v s]
  exact encodeWith_stringByte hw hw' v s hm hk (by rw [State.accessIndex]; omega)

/-- The length a successful encode reports is the least number of groups that hold the value, and the string is
minimal, at either width. -/
theorem encodeWith_length_least (hm : Memory.wf s.buf = true) (hok : (encodeWith v s).code = 0) :
    1 ≤ (encodeWith v s).cnt.toNat ∧ (encodeWith v s).cnt.toNat ≤ maxb w ∧
      v.toNat < 2 ^ (7 * (encodeWith v s).cnt.toNat) ∧
      (∀ m, 1 ≤ m → v.toNat < 2 ^ (7 * m) → (encodeWith v s).cnt.toNat ≤ m) ∧
      (2 ≤ (encodeWith v s).cnt.toNat →
        Memory.read (encodeWith v s).buf (s.accessIndex ((encodeWith v s).cnt.toNat - 1)) ≠ 0) := by
  have hpos := encLength_pos v.toNat
  rw [encodeWith_success_cnt hw hw' hok]
  refine ⟨hpos, encLength_le hw (toNat_lt_pow_maxb v), lt_pow_encLength _, fun _ => encLength_le,
    fun h2 => ?_⟩
  rw [encodeWith_success_read hw hw' hm hok (by omega)]
  exact encByte_last_ne_zero h2

/-- The last byte a successful encode stores, as a number, where its string has `n + 1` bytes. -/
theorem encodeWith_success_last (hm : Memory.wf s.buf = true) (hok : (encodeWith v s).code = 0) {n : Nat}
    (hn : encLength v.toNat = n + 1) :
    (Memory.read (encodeWith v s).buf (s.accessIndex n)).toNat = v.toNat / 2 ^ (7 * n) := by
  have hlast := encByte_last_toNat v.toNat
  rw [hn, Nat.add_sub_cancel] at hlast
  rw [encodeWith_success_read hw hw' hm hok (by omega), hlast]

end

/-- Settles O24, at each of the two widths. -/
theorem encodedLengthIsTheLeast : Obligations.EncodedLengthIsTheLeast := by
  refine fun s t hm hok => ⟨?encvi, ?encvl⟩
  case encvi => rintro ⟨⟩; exact encodeWith_length_least (by decide) (by decide) hm hok
  case encvl => rintro ⟨⟩; exact encodeWith_length_least (by decide) (by decide) hm hok

/-- ENCVI of a negative value: five bytes, of which the last holds the sign bit and the three bits below it. -/
theorem encodeWith_negative_vi {v : BitVec 32} {s : State} (hm : Memory.wf s.buf = true)
    (hok : (encodeWith v s).code = 0) (hneg : v.toInt < 0) :
    (encodeWith v s).cnt = 5 ∧ 0x08 ≤ (Memory.read (encodeWith v s).buf (s.accessIndex 4)).toNat ∧
      (Memory.read (encodeWith v s).buf (s.accessIndex 4)).toNat ≤ 0x0F := by
  have htop := BitVec.toInt_neg_iff.1 hneg
  have hlen : encLength v.toNat = 5 :=
    le_antisymm (encLength_le_five v) (lt_encLength (n := 4) (by omega))
  rw [encodeWith_success_last (by decide) (by decide) hm hok hlen]
  refine ⟨BitVec.eq_of_toNat_eq ?_, by omega, by omega⟩
  rw [encodeWith_success_cnt (by decide) (by decide) hok, hlen]
  rfl

/-- ENCVI of a non-negative value that takes five bytes: bit 31 is clear in the last. -/
theorem encodeWith_nonneg_vi_last {v : BitVec 32} {s : State} (hm : Memory.wf s.buf = true)
    (hok : (encodeWith v s).code = 0) (hpos : 0 ≤ v.toInt) (hcnt : (encodeWith v s).cnt = 5) :
    (Memory.read (encodeWith v s).buf (s.accessIndex 4)).toNat ≤ 0x07 := by
  have htop : v.toNat < 2 ^ 31 := by
    have hiff := BitVec.toInt_neg_iff (x := v)
    omega
  have hlen : encLength v.toNat = 5 := by
    rw [← encodeWith_success_cnt (by decide) (by decide) hok, hcnt]
    rfl
  rw [encodeWith_success_last (by decide) (by decide) hm hok hlen]
  omega

/-- ENCVL of a negative value: ten bytes, of which the last holds the sign bit alone. -/
theorem encodeWith_negative_vl {v : BitVec 64} {s : State} (hm : Memory.wf s.buf = true)
    (hok : (encodeWith v s).code = 0) (hneg : v.toInt < 0) :
    (encodeWith v s).cnt = 10 ∧ Memory.read (encodeWith v s).buf (s.accessIndex 9) = 0x01 := by
  have htop := BitVec.toInt_neg_iff.1 hneg
  have hlen : encLength v.toNat = 10 :=
    le_antisymm (encLength_le_ten v) (lt_encLength (n := 9) (by omega))
  refine ⟨BitVec.eq_of_toNat_eq ?_, BitVec.eq_of_toNat_eq ?_⟩
  · rw [encodeWith_success_cnt (by decide) (by decide) hok, hlen]
    rfl
  · have hone : v.toNat / 2 ^ (7 * 9) = 1 := by omega
    rw [encodeWith_success_last (by decide) (by decide) hm hok hlen, hone]
    rfl

/-- ENCVL of a non-negative value: nine groups hold its 63 bits. -/
theorem encodeWith_nonneg_vl_cnt {v : BitVec 64} {s : State} (hok : (encodeWith v s).code = 0)
    (hpos : 0 ≤ v.toInt) : (encodeWith v s).cnt.toNat ≤ 9 := by
  have hiff := BitVec.toInt_neg_iff (x := v)
  rw [encodeWith_success_cnt (by decide) (by decide) hok]
  exact encLength_le (by decide) (by omega)

/-- Settles O25, by the sign of the value at each of the two widths. -/
theorem negativeValuesTakeTheFullLength : Obligations.NegativeValuesTakeTheFullLength := by
  refine fun s t hm hok => ⟨?encvi, ?encvl⟩
  case encvi => rintro ⟨⟩; exact ⟨encodeWith_negative_vi hm hok, encodeWith_nonneg_vi_last hm hok⟩
  case encvl => rintro ⟨⟩; exact ⟨encodeWith_negative_vl hm hok, encodeWith_nonneg_vl_cnt hok⟩

/-! The number of passes (R82, R86, R101): what a pass that is not the last says of the next one, and from it that the
passes end within `MAXB(W)`. -/

/-- A pass of the encoder that is not the last had more than seven bits left, and shifts seven of them out. -/
theorem vePass_eq_more {w : Nat} {r r' : VeRegs w} {s t : State} (h : vePass r s = .more r' t) :
    128 ≤ r.u.toNat ∧ r'.u.toNat = r.u.toNat / 128 := by
  rcases Nat.lt_or_ge (s.off + r.i.toNat) s.len with hin | hout
  · rcases Nat.lt_or_ge r.u.toNat 128 with hu | hu
    · cases (vePass_final hu hin).symm.trans h
    · cases (vePass_more hu hin).symm.trans h
      exact ⟨hu, by simp [Nat.shiftRight_eq_div_pow]⟩
  · cases (vePass_underrun hout).symm.trans h

/-- A pass of the decoder that is not the last moves the bit position by seven, to one still within the width. -/
theorem vdPass_eq_more {w : Nat} {put : BitVec w → State → State} {r r' : VdRegs w} {s t : State}
    (h : vdPass put r s = .more r' t) : r'.pos = r.pos + 7 ∧ r'.pos.toNat < w := by
  unfold vdPass at h
  split at h
  · cases h
  · simp only at h
    split at h
    · split at h
      · cases h
      · cases h
        exact ⟨rfl, by simp only; omega⟩
    · cases h

/-- A value of at most `n + 1` groups takes at most `n + 1` passes of the encoder. -/
theorem vePasses_finish {w n : Nat} {r : VeRegs w} (s : State) (hu : r.u.toNat < 2 ^ (7 * (n + 1))) :
    ∃ t, vePasses (n + 1) r s = .finished t := by
  induction n generalizing r s with
  | zero =>
    rw [vePasses]
    cases hp : vePass r s with
    | more r' t => have := (vePass_eq_more hp).1; omega
    | finished t => exact ⟨t, rfl⟩
  | succ n ih =>
    rw [vePasses]
    cases hp : vePass r s with
    | more r' t =>
      obtain ⟨_, hshift⟩ := vePass_eq_more hp
      refine ih t ?_
      rw [hshift]
      rw [Nat.mul_succ, pow_add] at hu
      exact Nat.div_lt_of_lt_mul (by omega)
    | finished t => exact ⟨t, rfl⟩

/-- Where `n + 1` groups reach the width, the decoder ends within `n + 1` passes. `hw`: `pos` does not wrap. -/
theorem vdPasses_finish {w n : Nat} (put : BitVec w → State → State) {r : VdRegs w} (s : State) (hw : w ≤ 121)
    (hpos : w ≤ r.pos.toNat + 7 * (n + 1)) (hlt : r.pos.toNat < w) :
    ∃ t, vdPasses put (n + 1) r s = .finished t := by
  induction n generalizing r s with
  | zero =>
    rw [vdPasses]
    cases hp : vdPass put r s with
    | more r' t =>
      obtain ⟨hnext, hin⟩ := vdPass_eq_more hp
      rw [hnext] at hin
      bv_omega
    | finished t => exact ⟨t, rfl⟩
  | succ n ih =>
    rw [vdPasses]
    cases hp : vdPass put r s with
    | more r' t =>
      obtain ⟨hnext, hin⟩ := vdPass_eq_more hp
      have hval : r'.pos.toNat = r.pos.toNat + 7 := by rw [hnext]; bv_omega
      exact ih t (by omega) hin
    | finished t => exact ⟨t, rfl⟩

/-- Passes that finish, finish in the state the command answers, and so does a run of any greater bound. -/
theorem vePasses_encodeWith {w : Nat} (hw : 1 ≤ maxb w) (v : BitVec w) (s : State) :
    vePasses (maxb w) (veStart v) s = .finished (encodeWith v s) ∧
      ∀ k, veRun (maxb w + k) (veStart v) s = encodeWith v s := by
  obtain ⟨n, hn⟩ : ∃ n, maxb w = n + 1 := ⟨maxb w - 1, by omega⟩
  obtain ⟨t, ht⟩ := vePasses_finish (r := veStart v) (n := n) s (by rw [← hn]; exact toNat_lt_pow_maxb v)
  rw [← hn] at ht
  have hrun : encodeWith v s = t := veRun_of_vePasses (k := 0) ht
  rw [hrun]
  exact ⟨ht, fun _ => veRun_of_vePasses ht⟩

/-- The same of the decoder. `hw'`: the bit position has seven bits (R29). -/
theorem vdPasses_decodeWith {w : Nat} (hw : 1 ≤ w) (hw' : w ≤ 121) (put : BitVec w → State → State) (s : State) :
    vdPasses put (maxb w) (vdStart w) s = .finished (decodeWith put s) ∧
      ∀ k, vdRun put (maxb w + k) (vdStart w) s = decodeWith put s := by
  obtain ⟨n, hn⟩ : ∃ n, maxb w = n + 1 := ⟨maxb w - 1, by simp only [maxb]; omega⟩
  have hpos : (vdStart w).pos.toNat = 0 := rfl
  obtain ⟨t, ht⟩ := vdPasses_finish put (r := vdStart w) (n := n) s hw'
    (by rw [hpos, ← hn]; simp only [maxb]; omega) (by omega)
  rw [← hn] at ht
  have hrun : decodeWith put s = t := vdRun_of_vdPasses put (k := 0) ht
  rw [hrun]
  exact ⟨ht, fun _ => vdRun_of_vdPasses put ht⟩

/-- Settles O37, unit by unit and width by width. -/
theorem passesAreBoundedByMaxb : Obligations.PassesAreBoundedByMaxb := by
  intro s k
  have henc32 (v : BitVec 32) := vePasses_encodeWith (by decide) v s
  have henc64 (v : BitVec 64) := vePasses_encodeWith (by decide) v s
  obtain ⟨hdvi, hrvi⟩ := vdPasses_decodeWith (by decide) (by decide) State.putVi s
  obtain ⟨hdvl, hrvl⟩ := vdPasses_decodeWith (by decide) (by decide) State.putVl s
  exact ⟨fun v => (henc32 v).1, fun v => (henc64 v).1, hdvi, hdvl, fun v => (henc32 v).2 k, fun v => (henc64 v).2 k,
    hrvi k, hrvl k⟩

/-! Payload bits beyond the width (R65, R99, R108). -/

/-- Payload bits that the shift to `pos` moves past the width change nothing: where the low `m` bits reach the width,
they decide. -/
theorem accumulate_congr_low {w pos m : Nat} (hw : w ≤ pos + m) {b b' : Byte}
    (h : b'.extractLsb' 0 m = b.extractLsb' 0 m) (acc : BitVec w) : accumulate acc b' pos = accumulate acc b pos := by
  have hlow : ∀ j, j < m → b'.getLsbD j = b.getLsbD j := fun j hj => by
    simpa [hj] using congrArg (fun x => x.getLsbD j) h
  apply BitVec.eq_of_getLsbD_eq
  intro i hi
  rcases Nat.lt_or_ge i pos with hlt | hge
  · simp [accumulate, hlt]
  · simp [accumulate, segmentBits, hlow (i - pos) (by omega)]

/-- A decode behind which the memory is another with the same continuation bits and the same values comes to the same
outcome. `hput`: writing the result register and the memory commute. -/
theorem decodeWith_withBuf {w : Nat} (hm : maxb w < 15) (hp : 0 < maxb w) {put : BitVec w → State → State} {s : State}
    {m : Memory} (hput : ∀ v, put v { s with buf := m } = { put v s with buf := m })
    (hcont : ∀ k, k < maxb w → contBit (State.stringByte { s with buf := m } k) = contBit (s.stringByte k))
    (hval : ∀ n, n ≤ maxb w → State.stringValue w { s with buf := m } n = s.stringValue w n) :
    decodeWith put { s with buf := m } = { decodeWith put s with buf := m } := by
  have hset : ∀ n, n ≤ maxb w → (∀ k, k < n → contBit (s.stringByte k) = true) →
      ∀ k, k < n → contBit (State.stringByte { s with buf := m } k) = true :=
    fun n hn hc k hk => (hcont k (by omega)).trans (hc k hk)
  obtain ⟨n, hn, hc, hend, hi, e⟩ | ⟨hc, hi, e⟩ | ⟨n, hn, hc, hi, hout, e⟩ := decodeWith_cases put s hm hp
  · rw [e, decodeWith_terminated put hm.le hn (hset n hn.le hc) ((hcont n hn).trans hend) hi, hval _ hn, hput]
    rfl
  · rw [e, decodeWith_sizeExceeded put hm hp (hset _ le_rfl hc) hi, hval _ le_rfl]
  · rw [e, decodeWith_underrun put hm.le hn (hset n hn.le hc) hi hout]

/-- Replacing the last permitted byte by one that agrees with it in its continuation bit and its low `m` bits, which
reach the width, changes nothing of a decode but that byte. -/
theorem decodeWith_write_last {w n m : Nat} (hn : maxb w = n + 1) (hn' : n < 14) (hw : w ≤ 7 * n + m)
    {put : BitVec w → State → State} {s : State} (hwf : Memory.wf s.buf = true) {b : Byte}
    (hput : ∀ (v : BitVec w) (buf : Memory), put v { s with buf := buf } = { put v s with buf := buf })
    (hcont : contBit b = contBit (s.stringByte n))
    (hlow : b.extractLsb' 0 m = (s.stringByte n).extractLsb' 0 m) :
    decodeWith put { s with buf := Memory.write s.buf (s.accessIndex n) b } =
      { decodeWith put s with buf := Memory.write s.buf (s.accessIndex n) b } := by
  have hother : ∀ k, k < n →
      State.stringByte { s with buf := Memory.write s.buf (s.accessIndex n) b } k = s.stringByte k :=
    fun k hk => Memory.read_write_other s.buf b (by simp only [State.accessIndex]; omega)
  have hlast : State.stringByte { s with buf := Memory.write s.buf (s.accessIndex n) b } n = b :=
    Memory.read_write_same hwf _ b
  refine decodeWith_withBuf (by omega) (by omega) (fun v => hput v _) (fun k hk => ?cont) (fun j hj => ?value)
  case cont =>
    rcases Nat.lt_or_ge k n with hkn | hkn
    · rw [hother k hkn]
    · rw [show k = n by omega, hlast, hcont]
  case value =>
    rcases Nat.lt_or_ge n j with hjn | hjn
    · rw [show j = n + 1 by omega, State.stringValue_succ, State.stringValue_succ, hlast,
        State.stringValue_congr hother]
      exact accumulate_congr_low hw hlow _
    · exact State.stringValue_congr fun k hk => hother k (by omega)

/-- Settles O33: at 32 bits the 5th byte's low four bits reach the width, at 64 bits the 10th byte's lowest. -/
theorem excessPayloadBitsAreDropped : Obligations.ExcessPayloadBitsAreDropped := by
  refine fun s t b hwf => ⟨?decvi, ?decvl⟩
  case decvi =>
    rintro ⟨⟩ hcont hlow
    exact congrArg Host.Outcome.next
      (decodeWith_write_last (n := 4) (by decide) (by decide) (by decide) hwf (fun _ _ => rfl) hcont hlow)
  case decvl =>
    rintro ⟨⟩ hcont hlow
    exact congrArg Host.Outcome.next
      (decodeWith_write_last (n := 9) (by decide) (by decide) (by decide) hwf (fun _ _ => rfl) hcont hlow)

/-! The command word (R72 to R75) and the reserved codes (R73). -/

/-- Settles O1. -/
theorem commandMapIsTheTable : Obligations.CommandMapIsTheTable :=
  ⟨rfl, rfl, rfl, rfl, rfl, rfl, rfl, rfl⟩

theorem decodeCommand_encode (i : Instr) : decodeCommand (encode i) = i := by cases i <;> rfl

theorem encode_decodeCommand : ∀ c : BitVec 3, encode (decodeCommand c) = c := by decide

/-- Settles O2: a number decodes exactly when it fits `CMD`. -/
theorem decodeAndEncodeAgree : Obligations.DecodeAndEncodeAgree := by
  refine ⟨fun i _ => decodeCommand_encode i, encode_decodeCommand, fun n c => ?_, fun n w hw => ?_⟩
  · rw [decodeTableWord_eq_some_iff, BitVec.ofNat_toNat, BitVec.setWidth_eq]
    exact ⟨decide_eq_true c.isLt, rfl⟩
  · refine Option.eq_none_iff_forall_ne_some.2 fun i hi => ?_
    have hfits := of_decide_eq_true ((decodeTableWord_eq_some_iff n w i).1 hi).1
    omega

/-- Both reserved codes raise IllegalCommand, which changes `STATUS` alone (R137). -/
theorem exec_reserved {i : Instr} (hi : i = .reserved5 ∨ i = .reserved7) (s : State) :
    exec i s = .next { s with status := 0b111#3 } := by
  obtain rfl | rfl := hi
  · rw [reserved5_eq, raise_illegalCommand]
  · rw [reserved7_eq, raise_illegalCommand]

/-- Settles O15: a write of 5 or 7 to `CMD` is a step that runs a reserved code. -/
theorem reservedCodesRaiseIllegalCommand : Obligations.ReservedCodesRaiseIllegalCommand :=
  fun s => ⟨exec_reserved (.inl rfl) s, exec_reserved (.inr rfl) s, fun _ =>
    ⟨fun hp => (step_command hp).trans (exec_reserved (.inl rfl) _),
      fun hp => (step_command hp).trans (exec_reserved (.inr rfl) _)⟩⟩

/-! The host's actions (R79 to R81). -/

/-- A number that fits `OFF` is taken as it is (R79). -/
theorem hostWr_off_of_lt {s : State} {n : Nat} (hn : n < s.cfg.space) :
    hostWr .off n s = .next { s with off := n } := by
  rw [hostWr, writeReg, bvAW_of_lt s.cfg n hn]

/-- A number that fits `LEN` is taken as it is (R79). -/
theorem hostWr_len_of_lt {s : State} {n : Nat} (hn : n < s.cfg.space) :
    hostWr .len n s = .next { s with len := n } := by
  rw [hostWr, writeReg, bvAW_of_lt s.cfg n hn]

/-- Settles O48, action by action: by the definition of the register write, except where a number must be seen to fit
`OFF`, `LEN` or the index space. -/
theorem hostRegisterActionsChangeOneRegister : Obligations.HostRegisterActionsChangeOneRegister := by
  refine fun s v rest => ⟨rfl, rfl, rfl, rfl, rfl, rfl, rfl, rfl, ?inRange, fun _ => step_rd rfl,
    fun _ => step_chk rfl, ?bufget⟩
  case inRange =>
    exact fun n hn => ⟨(step_wr rfl).trans (hostWr_off_of_lt (s := State.withPending rest s) hn),
      (step_wr rfl).trans (hostWr_len_of_lt (s := State.withPending rest s) hn)⟩
  case bufget => exact fun a n h => (step_bufget rfl).trans (hostBufget_of_le h)

/-- Settles O50: `ADV` at each of its two outcomes. -/
theorem advAddsCntToOff : Obligations.AdvAddsCntToOff := by
  refine fun s rest hp => ⟨fun hsum => ?_, fun hsum => ⟨?_, s.freeOff_lt⟩⟩
  · exact (step_adv hp).trans (hostAdv_of_lt hsum)
  · exact (step_adv hp).trans (hostAdv_of_le hsum)

/-- `BUFSET` of a length that fits `LEN` (R80): the listed bytes padded, and the length. -/
theorem hostBufset_of_lt {s : State} {n : Nat} (hn : n < s.cfg.space) (bytes : List Byte) :
    hostBufset n bytes s = .next { s with buf := Memory.writeList s.buf 0 (padded n bytes), len := n } := by
  simp only [hostBufset, setBuf, bvAW_of_lt s.cfg n hn]

/-- Settles O49: what `BUFSET` writes is read back byte by byte, as a single byte write is. -/
theorem hostBufferActionsWriteTheirBytes : Obligations.HostBufferActionsWriteTheirBytes := by
  refine fun s rest hwf => ⟨?bufset, ?write, ?outside⟩
  case bufset =>
    intro n bs hn _ hp
    refine ⟨_, (step_bufset hp).trans (hostBufset_of_lt (s := State.withPending rest s) hn bs), rfl,
      fun k hk => ?_, fun a ha => ?_⟩
    · have hk' : k < (padded n bs).length := by rwa [padded_length]
      have hread := Memory.read_writeList_at hwf 0 (padded n bs) hk'
      rw [Nat.zero_add, padded_getElem] at hread
      exact hread
    · exact Memory.read_writeList_other s.buf 0 (padded n bs) (.inr (by rw [padded_length]; omega))
  case write =>
    exact fun a b hp ha => ⟨_, (step_bufWrite hp).trans (hostBufWrite_of_lt (s := State.withPending rest s) ha b), rfl,
      Memory.read_write_same hwf a b, fun _ hne => Memory.read_write_other s.buf b hne⟩
  case outside => exact fun a b hp ha =>
    (step_bufWrite hp).trans (hostBufWrite_of_le (s := State.withPending rest s) ha b)

end Sys2Proof.Machine

namespace Sys2Proof.Machine

/-! What an encode stores and leaves unchanged, where its string fits and where it does not (R89, R92). -/

section
variable {w : Nat} (hw : 1 ≤ maxb w) (hw' : maxb w ≤ 15) {v : BitVec w} {s : State}
include hw hw'

/-- An encode ends in BufferUnderrun exactly where its string does not fit (R92). -/
theorem encodeWith_underrun_iff : s.len < s.off + encLength v.toNat ↔
    ∃ t, (.next (encodeWith v s) : Host.Outcome State Fault Refusal) = .next t ∧ t.code = 2 := by
  rw [← Nat.not_le]
  constructor
  · exact fun hover => ⟨_, rfl, by rw [encodeWith_code hw hw', if_neg hover]⟩
  · rintro ⟨_, ⟨⟩, hc⟩ hfit
    rw [encodeWith_code hw hw', if_pos hfit] at hc
    exact absurd hc (by decide)

/-- The whole next state of an encode whose string fits, at either width (R89). -/
theorem encodeWith_stores_string (hm : Memory.wf s.buf = true) (hfit : s.off + encLength v.toNat ≤ s.len) :
    encodeWith v s = { s with buf := (encodeWith v s).buf, cnt := BitVec.ofNat 4 (encLength v.toNat),
                              status := s.status &&& 0b100#3 } ∧
      (encodeWith v s).cnt.toNat = encLength v.toNat ∧
      (∀ k, k < encLength v.toNat → Memory.read (encodeWith v s).buf (s.accessIndex k) = encByte v.toNat k) ∧
      ∀ a, s.outside (encLength v.toNat) a → Memory.read (encodeWith v s).buf a = Memory.read s.buf a := by
  have hok : (encodeWith v s).code = 0 := by rw [encodeWith_code hw hw', if_pos hfit]
  obtain ⟨hstate, hframe⟩ := encodeWith_success hw hw' hok
  rw [encodeWith_cnt hw hw', if_pos hfit] at hstate
  exact ⟨hstate, encodeWith_success_cnt hw hw' hok, fun _ => encodeWith_success_read hw hw' hm hok, hframe⟩

/-- The whole next state of an encode whose string does not fit, at either width (R92). A byte below `LEN` is not the
last of its string, so its continuation bit is set. -/
theorem encodeWith_stores_what_fits (hm : Memory.wf s.buf = true) (hover : s.len < s.off + encLength v.toNat) :
    encodeWith v s = { s with buf := (encodeWith v s).buf, status := 0b110#3 } ∧
      (∀ k, s.accessIndex k < s.len → Memory.read (encodeWith v s).buf (s.accessIndex k) = encByte v.toNat k ∧
        contBit (encByte v.toNat k) = true) ∧
      ∀ a, s.outside (s.len - s.off) a → Memory.read (encodeWith v s).buf a = Memory.read s.buf a := by
  refine ⟨?state, fun k hk => ?byte, fun a ha => ?frame⟩
  case state => rw [encodeWith_eq hw hw', if_neg (by omega)]
  case byte =>
    have hnotLast : k + 1 < encLength v.toNat := by rw [State.accessIndex] at hk; omega
    have hread := encodeWith_stringByte hw hw' v s hm (by omega) hk
    rw [State.stringByte, encodeWith_accessIndex hw hw'] at hread
    exact ⟨hread, by rw [contBit_encByte, decide_eq_true hnotLast]⟩
  case frame =>
    rw [encodeWith_buf hw hw']
    exact State.read_writeList_outside (List.length_take_le _ _) ha

end

/-- Settles O21, at each of the two widths. -/
theorem encodeStoresTheCanonicalString : Obligations.EncodeStoresTheCanonicalString := by
  refine fun s hm => ⟨fun hfit => ⟨_, rfl, ?encvi⟩, fun hfit => ⟨_, rfl, ?encvl⟩⟩
  case encvi => exact encodeWith_stores_string (by decide) (by decide) hm hfit
  case encvl => exact encodeWith_stores_string (by decide) (by decide) hm hfit

/-- Settles O22: when each encode fails, then what it has done where it did. -/
theorem encodeThatDoesNotFitLeavesItsPrefix : Obligations.EncodeThatDoesNotFitLeavesItsPrefix := by
  refine fun s hm => ⟨?encviIff, ?encvlIff, fun hover => ⟨_, rfl, ?encvi⟩, fun hover => ⟨_, rfl, ?encvl⟩⟩
  case encviIff => exact encodeWith_underrun_iff (by decide) (by decide)
  case encvlIff => exact encodeWith_underrun_iff (by decide) (by decide)
  case encvi => exact encodeWith_stores_what_fits (by decide) (by decide) hm hover
  case encvl => exact encodeWith_stores_what_fits (by decide) (by decide) hm hover

/-! Decoding what was encoded (R96, R113): the groups of a canonical string assemble to its value, and its last byte is
the first whose continuation bit is clear. -/

/-- ORing in group `n` of `U` extends its low `7n` bits to its low `7(n + 1)` bits (R59, R83). -/
theorem accumulate_encByte (w U n : Nat) :
    accumulate (BitVec.ofNat w (U % 2 ^ (7 * n))) (encByte U n) (7 * n) =
      BitVec.ofNat w (U % 2 ^ (7 * (n + 1))) := by
  rw [accumulate, segmentBits_encByte]
  apply BitVec.eq_of_getLsbD_eq
  intro i hi
  simp only [BitVec.getLsbD_or, BitVec.getLsbD_shiftLeft, BitVec.getLsbD_setWidth, BitVec.getLsbD_ofNat,
    Nat.testBit_mod_two_pow, Nat.testBit_shiftRight]
  by_cases hlow : i < 7 * n
  · simp [hlow, hi, show i < 7 * (n + 1) by omega]
  · have hgroup : i - 7 * n < 7 ↔ i < 7 * (n + 1) := by omega
    simp [hlow, hi, hgroup, show i - 7 * n < w by omega, show 7 * n + (i - 7 * n) = i by omega]

/-- The first `n` bytes of a canonical string denote the low `7n` bits of its value. -/
theorem State.stringValue_of_encBytes {w U n : Nat} {s : State} (h : ∀ k, k < n → s.stringByte k = encByte U k) :
    s.stringValue w n = BitVec.ofNat w (U % 2 ^ (7 * n)) := by
  induction n with
  | zero => simp [Nat.mod_one]
  | succ n ih =>
    rw [State.stringValue_succ, ih fun k hk => h k (by omega), h n (by omega), accumulate_encByte]

section
variable {w : Nat} (hw : 1 ≤ maxb w) (hw' : maxb w ≤ 15) (put : BitVec w → State → State) {v : BitVec w} {s : State}
include hw hw'

/-- A decode where the whole canonical string of a value stands below `LEN` gives the value and the length. -/
theorem decodeWith_of_encBytes (h : ∀ k, k < encLength v.toNat → s.stringByte k = encByte v.toNat k)
    (hin : s.off + encLength v.toNat ≤ s.len) :
    decodeWith put s = ({ put v s with cnt := BitVec.ofNat 4 (encLength v.toNat) }).succeed := by
  obtain ⟨n, hn⟩ : ∃ n, encLength v.toNat = n + 1 := Nat.exists_eq_add_of_le' (encLength_pos v.toNat)
  have hmax : encLength v.toNat ≤ maxb w := encLength_le hw (toNat_lt_pow_maxb v)
  have hvalue : s.stringValue w (n + 1) = v := by
    rw [← hn, State.stringValue_of_encBytes h, Nat.mod_eq_of_lt (lt_pow_encLength _), BitVec.ofNat_toNat,
      BitVec.setWidth_eq]
  have hcont : ∀ k, k < n → contBit (s.stringByte k) = true := fun k hk => by
    rw [h k (by omega), contBit_encByte, decide_eq_true (by omega)]
  have hend : contBit (s.stringByte n) = false := by
    rw [h n (by omega), contBit_encByte, decide_eq_false (by omega)]
  rw [decodeWith_terminated put hw' (by omega) hcont hend (by rw [State.accessIndex]; omega), hvalue, hn]

/-- A decode after a successful encode, in any state `t` that has the memory, `OFF`, `LEN` and `CNT` that the encode
left, gives the encoded value and keeps `CNT`. -/
theorem decodeWith_after_encodeWith (hm : Memory.wf s.buf = true) (hok : (encodeWith v s).code = 0) {t : State}
    (hbuf : t.buf = (encodeWith v s).buf) (hoff : t.off = (encodeWith v s).off) (hlen : t.len = (encodeWith v s).len)
    (hcnt : t.cnt = (encodeWith v s).cnt) :
    decodeWith put t = { put v t with cnt := t.cnt, status := (put v t).status &&& 0b100#3 } := by
  have hfit := fits_of_encodeWith_success hw hw' hok
  have hoff' : t.off = s.off := hoff.trans (by rw [encodeWith_frame hw hw'])
  have hbytes : ∀ k, k < encLength v.toNat → t.stringByte k = encByte v.toNat k := fun k hk => by
    rw [State.stringByte, State.accessIndex, hbuf, hoff']
    exact encodeWith_success_read hw hw' hm hok hk
  rw [decodeWith_of_encBytes hw hw' put hbytes (by rwa [hoff', hlen, encodeWith_len hw hw']), State.succeed_eq, hcnt,
    encodeWith_cnt hw hw', if_pos hfit]
  rfl

end

/-- Settles O35, at each of the two widths: the result register the decode starts from is no part of what it reads. -/
theorem decodeAfterEncodeReturnsTheValue : Obligations.DecodeAfterEncodeReturnsTheValue := by
  refine fun s t hm hok => ⟨?vi, ?vl⟩
  case vi =>
    rintro ⟨⟩ v
    exact congrArg Host.Outcome.next
      (decodeWith_after_encodeWith (by decide) (by decide) State.putVi hm hok rfl rfl rfl rfl)
  case vl =>
    rintro ⟨⟩ v
    exact congrArg Host.Outcome.next
      (decodeWith_after_encodeWith (by decide) (by decide) State.putVl hm hok rfl rfl rfl rfl)

end Sys2Proof.Machine

namespace Sys2Proof.Machine

/-! The three outcomes of a decode, each on the string that brings it about (R103 to R105). -/

/-- Settles O27, at each of the two widths. -/
theorem decodeOfATerminatedString : Obligations.DecodeOfATerminatedString := by
  refine fun s n hcont hend hin => ⟨fun hn => congrArg Host.Outcome.next ?decvi,
    fun hn => congrArg Host.Outcome.next ?decvl⟩
  case decvi => exact (decodeWith_terminated State.putVi (by decide) hn hcont hend hin).trans (State.succeed_eq _)
  case decvl => exact (decodeWith_terminated State.putVl (by decide) hn hcont hend hin).trans (State.succeed_eq _)

/-- An index below `u(LEN)` has every earlier one below it too (R44). -/
theorem State.accessIndex_lt_len_of_le {s : State} {n k : Nat} (h : s.accessIndex n < s.len) (hk : k ≤ n) :
    s.accessIndex k < s.len := by
  rw [State.accessIndex] at h ⊢
  omega

/-- Settles O28, at each of the two widths; at 64 bits the accumulator is as wide as `EVAL`. -/
theorem decodeOfTooManyGroups : Obligations.DecodeOfTooManyGroups := by
  refine fun s => ⟨fun hcont hin => congrArg Host.Outcome.next ?decvi,
    fun hcont hin => congrArg Host.Outcome.next ?decvl⟩
  case decvi =>
    exact decodeWith_sizeExceeded State.putVi (by decide) (by decide) hcont
      fun k hk => State.accessIndex_lt_len_of_le hin (Nat.le_of_lt_succ hk)
  case decvl =>
    have e := decodeWith_sizeExceeded State.putVl (s := s) (by decide) (by decide) hcont
      fun k hk => State.accessIndex_lt_len_of_le hin (Nat.le_of_lt_succ hk)
    rwa [BitVec.setWidth_eq] at e

/-- Settles O29, at each of the two widths. -/
theorem decodeOfATruncatedString : Obligations.DecodeOfATruncatedString := by
  refine fun s n hcont hin hout => ⟨fun hn => congrArg Host.Outcome.next ?decvi,
    fun hn => congrArg Host.Outcome.next ?decvl⟩
  case decvi => exact decodeWith_underrun State.putVi (by decide) hn hcont hin hout
  case decvl => exact decodeWith_underrun State.putVl (by decide) hn hcont hin hout

/-! The count of leading bytes with the continuation bit set (R106). -/

/-- The count goes on to the next byte while all bytes before it have been counted. -/
theorem State.leading_succ (s : State) (n : Nat) :
    s.leading (n + 1) = if s.leading n = n ∧ contBit (s.stringByte n) = true then n + 1 else s.leading n := by
  have hiff : ((List.range n).takeWhile fun k => contBit (s.stringByte k)).length = (List.range n).length ↔
      s.leading n = n := by rw [List.length_range]; rfl
  rw [State.leading, List.range_succ, List.takeWhile_append]
  by_cases hall : s.leading n = n
  · rw [if_pos (hiff.mpr hall)]
    cases hb : contBit (s.stringByte n) <;> simp [hb, hall]
  · rw [if_neg (mt hiff.mp hall), if_neg (mt And.left hall)]
    rfl

theorem State.leading_of_all {s : State} {n : Nat} (hcont : ∀ k, k < n → contBit (s.stringByte k) = true) :
    s.leading n = n := by
  induction n with
  | zero => rfl
  | succ n ih => rw [State.leading_succ, if_pos ⟨ih fun k hk => hcont k (by omega), hcont n (by omega)⟩]

theorem State.leading_of_first_clear {s : State} {n N : Nat} (hN : n < N)
    (hcont : ∀ k, k < n → contBit (s.stringByte k) = true) (hend : contBit (s.stringByte n) = false) :
    s.leading N = n := by
  induction N, hN using Nat.le_induction with
  | base => rw [State.leading_succ, if_neg (by simp [hend]), State.leading_of_all hcont]
  | succ N hN ih => rw [State.leading_succ, ih, if_neg (by omega)]

/-- The three cases of R106, at either width. -/
theorem decodeWith_outcome_of_leading {w : Nat} (hm : maxb w < 15) (hp : 0 < maxb w) (put : BitVec w → State → State)
    (s : State) :
    (s.leading (min s.avail (maxb w)) < min s.avail (maxb w) →
      (decodeWith put s).code = 0 ∧ (decodeWith put s).cnt.toNat = s.leading (min s.avail (maxb w)) + 1) ∧
    (s.leading (min s.avail (maxb w)) = maxb w → (decodeWith put s).code = 1) ∧
    (s.leading (min s.avail (maxb w)) = s.avail → s.avail < maxb w → (decodeWith put s).code = 2) := by
  obtain ⟨n, hn, hc, hend, hin, e⟩ | ⟨hc, hin, e⟩ | ⟨n, hn, hc, hin, hout, e⟩ := decodeWith_cases put s hm hp
  · have havail : n < s.avail := by rw [State.accessIndex] at hin; rw [State.avail]; omega
    rw [State.leading_of_first_clear (by omega) hc hend, e]
    exact ⟨fun _ => ⟨State.succeed_code _, ofNat4_toNat (by omega)⟩, fun h => by omega, fun h => by omega⟩
  · have havail : maxb w ≤ s.avail := by
      have hlast := hin (maxb w - 1) (by omega)
      rw [State.accessIndex] at hlast
      rw [State.avail]
      omega
    rw [Nat.min_eq_right havail, State.leading_of_all hc, e]
    exact ⟨fun h => by omega, fun _ => code_after_sizeExceeded, fun _ h => by omega⟩
  · have havail : s.avail = n := by
      rw [State.accessIndex] at hout
      rw [State.avail]
      rcases Nat.eq_zero_or_pos n with rfl | hpos
      · omega
      · have hlast := hin (n - 1) (by omega)
        rw [State.accessIndex] at hlast
        omega
    rw [havail, Nat.min_eq_left hn.le, State.leading_of_all hc, e]
    exact ⟨fun h => by omega, fun h => by omega, fun _ _ => code_after_bufferUnderrun⟩

/-- Settles O30, at each of the two widths. -/
theorem decodeOutcomeIsDecidedByTheLeadingBytes : Obligations.DecodeOutcomeIsDecidedByTheLeadingBytes :=
  fun s => ⟨⟨_, rfl, decodeWith_outcome_of_leading (by decide) (by decide) State.putVi s⟩,
    ⟨_, rfl, decodeWith_outcome_of_leading (by decide) (by decide) State.putVl s⟩⟩

/-! The bits of a decoded value (R59, R107, R109). -/

/-- Bit `i` of the value of `n` bytes is bit `i mod 7` of byte `i / 7`, where that is one of them. -/
theorem State.stringValue_getLsbD {w n i : Nat} (s : State) (hi : i < w) :
    (s.stringValue w n).getLsbD i = (decide (i < 7 * n) && (s.stringByte (i / 7)).getLsbD (i % 7)) := by
  induction n with
  | zero => simp
  | succ n ih =>
    rw [State.stringValue_succ, accumulate, segmentBits, BitVec.getLsbD_or, ih]
    rcases Nat.lt_trichotomy (i / 7) n with hlt | heq | hgt
    · simp [show i < 7 * n by omega, show i < 7 * (n + 1) by omega]
    · simp [hi, heq, show ¬ i < 7 * n by omega, show i < 7 * (n + 1) by omega, show i - 7 * n = i % 7 by omega,
        Nat.mod_lt]
    · simp [show ¬ i < 7 * n by omega, show ¬ i < 7 * (n + 1) by omega, show ¬ i - 7 * n < 7 by omega]

/-- `n` groups make a value below `2^(7n)`. -/
theorem State.stringValue_toNat_lt (w n : Nat) (s : State) : (s.stringValue w n).toNat < 2 ^ (7 * n) := by
  refine Nat.lt_pow_two_of_testBit _ fun i hi => ?_
  rw [BitVec.testBit_toNat]
  rcases Nat.lt_or_ge i w with hiw | hiw
  · rw [State.stringValue_getLsbD s hiw, decide_eq_false (by omega), Bool.false_and]
  · exact BitVec.getLsbD_of_ge _ _ hiw

/-- Where the sign bit is bit `r` of group `q`, a negative value has that group, with that bit set. -/
theorem State.sign_bit_of_stringValue_neg {w q r n : Nat} {s : State} (hw : w = 7 * q + r + 1) (hr : r < 7)
    (h : (s.stringValue w n).toInt < 0) : q < n ∧ (s.stringByte q).getLsbD r = true := by
  have hsign : (s.stringValue w n).getLsbD (w - 1) = true := by
    rw [← BitVec.msb_eq_getLsbD_last, BitVec.msb_eq_toInt]
    exact decide_eq_true h
  rw [State.stringValue_getLsbD s (by omega), Bool.and_eq_true, decide_eq_true_eq, show (w - 1) / 7 = q by omega,
    show (w - 1) % 7 = r by omega] at hsign
  exact ⟨by omega, hsign.2⟩

/-- The value and the count `c` of a string of at most `q + 1` bytes, where the sign bit is bit `r` of group `q`: with
fewer bytes the value is not negative, and a negative one has its sign from byte `q` (R107, R109). -/
theorem State.stringValue_sign {w q r n : Nat} {s : State} {c : BitVec 4} (hw : w = 7 * q + r + 1) (hr : r < 7)
    (hq : q < 15) (hn : n ≤ q) (hc : c = BitVec.ofNat 4 (n + 1)) :
    (c.toNat < q + 1 → (s.stringValue w (n + 1)).toNat < 2 ^ (7 * c.toNat) ∧ 0 ≤ (s.stringValue w (n + 1)).toInt) ∧
      ((s.stringValue w (n + 1)).toInt < 0 → c = BitVec.ofNat 4 (q + 1) ∧ (s.stringByte q).getLsbD r = true) := by
  have hcount : c.toNat = n + 1 := by rw [hc]; exact ofNat4_toNat (by omega)
  refine ⟨fun hshort => ⟨?bound, ?nonneg⟩, fun hneg => ?sign⟩
  case bound => rw [hcount]; exact State.stringValue_toNat_lt _ _ _
  case nonneg =>
    by_contra hneg
    have hlong := (State.sign_bit_of_stringValue_neg hw hr (not_le.mp hneg)).1
    omega
  case sign =>
    obtain ⟨hlong, hbit⟩ := State.sign_bit_of_stringValue_neg hw hr hneg
    exact ⟨by rw [hc, show n = q by omega], hbit⟩

/-! What a success says of the string, and the bytes a decode depends on (R103, R111). -/

section
variable {w : Nat} (hm : maxb w < 15) (hp : 0 < maxb w) {put : BitVec w → State → State} {s : State}
include hm hp

/-- A decode ends with `CODE` 0 only on a terminated string within the limit (R103): the first of the three outcomes
of R106, the only one with that code. -/
theorem decodeWith_success_string (hok : (decodeWith put s).code = 0) :
    ∃ n, n < maxb w ∧ (∀ k, k < n → contBit (s.stringByte k) = true) ∧ contBit (s.stringByte n) = false ∧
      s.accessIndex n < s.len ∧
      decodeWith put s = ({ put (s.stringValue w (n + 1)) s with cnt := BitVec.ofNat 4 (n + 1) }).succeed := by
  obtain h | ⟨_, _, e⟩ | ⟨_, _, _, _, _, e⟩ := decodeWith_cases put s hm hp
  · exact h
  · rw [e] at hok
    exact absurd (code_after_sizeExceeded.symm.trans hok) (by decide)
  · rw [e] at hok
    exact absurd (code_after_bufferUnderrun.symm.trans hok) (by decide)

/-- A decode depends on the bytes of its string, and where it faults on the first `MAXB` bytes (R111). `hput`: writing
the result register and the memory commute. -/
theorem decodeWith_withBuf_of_string {m : Memory} (hput : ∀ v, put v { s with buf := m } = { put v s with buf := m })
    (hsame : ∀ k, k < (if (decodeWith put s).code = 0 then (decodeWith put s).cnt.toNat else maxb w) →
      State.stringByte { s with buf := m } k = s.stringByte k) :
    decodeWith put { s with buf := m } = { decodeWith put s with buf := m } := by
  by_cases hok : (decodeWith put s).code = 0
  · obtain ⟨n, hn, hc, hend, hin, e⟩ := decodeWith_success_string hm hp hok
    have hcnt : (decodeWith put s).cnt.toNat = n + 1 := by rw [e]; exact ofNat4_toNat (by omega)
    rw [if_pos hok, hcnt] at hsame
    have hc' : ∀ k, k < n → contBit (State.stringByte { s with buf := m } k) = true :=
      fun k hk => by rw [hsame k (by omega)]; exact hc k hk
    have hend' : contBit (State.stringByte { s with buf := m } n) = false := by rw [hsame n n.lt_succ_self]; exact hend
    rw [e, decodeWith_terminated put hm.le hn hc' hend' hin, State.stringValue_congr hsame, hput]
    rfl
  · rw [if_neg hok] at hsame
    exact decodeWith_withBuf hm hp hput (fun k hk => by rw [hsame k hk])
      fun n hn => State.stringValue_congr fun k hk => hsame k (by omega)

end

/-- Settles O31: the sign of a VarInt is bit 3 of group 4 (31 = 7 * 4 + 3), of a VarLong bit 0 of group 9
(63 = 7 * 9). -/
theorem shortStringsDecodeToNonNegativeValues : Obligations.ShortStringsDecodeToNonNegativeValues := by
  refine fun s t hok => ⟨?decvi, ?decvl⟩
  case decvi =>
    rintro ⟨⟩
    obtain ⟨n, hn, _, _, _, e⟩ := decodeWith_success_string (by decide) (by decide) hok
    rw [e]
    exact State.stringValue_sign (q := 4) (r := 3) rfl (by decide) (by decide) (Nat.le_of_lt_succ hn) rfl
  case decvl =>
    rintro ⟨⟩
    obtain ⟨n, hn, _, _, _, e⟩ := decodeWith_success_string (by decide) (by decide) hok
    rw [e]
    exact State.stringValue_sign (q := 9) (r := 0) rfl (by decide) (by decide) (Nat.le_of_lt_succ hn) rfl

/-- Settles O32, at each of the two widths. -/
theorem decodeDependsOnItsStringOnly : Obligations.DecodeDependsOnItsStringOnly := by
  refine fun s t m => ⟨?decvi, ?decvl⟩
  case decvi =>
    rintro ⟨⟩ hsame
    exact congrArg Host.Outcome.next
      (decodeWith_withBuf_of_string (by decide) (by decide) (fun _ => rfl) hsame)
  case decvl =>
    rintro ⟨⟩ hsame
    exact congrArg Host.Outcome.next
      (decodeWith_withBuf_of_string (by decide) (by decide) (fun _ => rfl) hsame)

/-- Settles O34: at each width, the three outcomes of R106. -/
theorem decodeChangesOnlyItsResults : Obligations.DecodeChangesOnlyItsResults := by
  refine fun s t => ⟨?decvi, ?decvl⟩
  case decvi =>
    intro e
    obtain ⟨n, _, _, _, _, h⟩ | ⟨_, _, h⟩ | ⟨_, _, _, _, _, h⟩ := decvi_cases s <;> cases h.symm.trans e
    · exact ⟨rfl, fun hc => absurd (code_after_success _) hc, fun _ => ⟨rfl, rfl⟩⟩
    · exact ⟨rfl, fun _ => ⟨rfl, rfl⟩, fun hc => absurd code_after_sizeExceeded hc⟩
    · exact ⟨rfl, fun _ => ⟨rfl, rfl⟩, fun _ => ⟨rfl, rfl⟩⟩
  case decvl =>
    intro e
    obtain ⟨n, _, _, _, _, h⟩ | ⟨_, _, h⟩ | ⟨_, _, _, _, _, h⟩ := decvl_cases s <;> cases h.symm.trans e
    · exact ⟨rfl, fun hc => absurd (code_after_success _) hc, fun _ => ⟨rfl, rfl⟩⟩
    · exact ⟨rfl, fun _ => ⟨rfl, rfl⟩, fun hc => absurd code_after_sizeExceeded hc⟩
    · exact ⟨rfl, fun _ => ⟨rfl, rfl⟩, fun _ => ⟨rfl, rfl⟩⟩

end Sys2Proof.Machine

namespace Sys2Proof.Machine

/-! Unit PE: the packed word as a number (R115), what a coordinate outside its field's range comes back as (R120), and
the separation of the three fields (R117, R118). -/

/-- The value of the word `{a, b, c}` (R115). -/
theorem fields_toNat (a b : BitVec 26) (c : BitVec 12) :
    (a ++ (b ++ c) : BitVec 64).toNat = a.toNat * 2 ^ 38 + b.toNat * 2 ^ 12 + c.toNat := by
  calc (a ++ (b ++ c) : BitVec 64).toNat
    _ = a.toNat <<< 38 ||| (b ++ c).toNat := BitVec.toNat_append a (b ++ c)
    _ = a.toNat * 2 ^ 38 + (b ++ c).toNat := by
      rw [← Nat.shiftLeft_add_eq_or_of_lt (b ++ c).isLt, Nat.shiftLeft_eq]
    _ = a.toNat * 2 ^ 38 + (b.toNat * 2 ^ 12 + c.toNat) := by
      rw [BitVec.toNat_append, ← Nat.shiftLeft_add_eq_or_of_lt c.isLt, Nat.shiftLeft_eq]
    _ = a.toNat * 2 ^ 38 + b.toNat * 2 ^ 12 + c.toNat := (Nat.add_assoc ..).symm

/-- Settles O39: the word as a number is that of its three fields. -/
theorem posencPacksTheThreeFields : Obligations.PosencPacksTheThreeFields := by
  refine fun s => ⟨posenc_eq s, fun t e => ?_⟩
  cases (posenc_eq s).symm.trans e
  exact (fields_toNat _ _ _).trans (by simp only [BitVec.extractLsb'_toNat, Nat.shiftRight_zero])

/-- The balanced remainder is the remainder of the value moved up by half the modulus, moved back down. -/
theorem bmod_two_pow_succ (k : Int) (n : Nat) : k.bmod (2 ^ (n + 1)) = (k + 2 ^ n) % 2 ^ (n + 1) - 2 ^ n := by
  have hpos : (0 : Int) < 2 ^ n := by positivity
  have hge := Int.emod_nonneg (k + 2 ^ n) (b := 2 ^ (n + 1)) (by positivity)
  have hlt := Int.emod_lt_of_pos (k + 2 ^ n) (b := 2 ^ (n + 1)) (by positivity)
  have hdvd : (2 : Int) ^ (n + 1) ∣ (k + 2 ^ n) % 2 ^ (n + 1) - (k + 2 ^ n) := Int.dvd_emod_sub_self
  rw [Int.bmod_eq_iff (by positivity)]
  push_cast
  exact ⟨by omega, by omega, by rwa [sub_sub, add_comm (2 ^ n)]⟩

/-- The low `n + 1` bits of a word, sign-extended, read as the word's value reduced into their signed range (R120). -/
theorem lowField_signExtend_toInt {n N : Nat} (hn : n + 1 ≤ N) (v : BitVec N) :
    ((v.extractLsb' 0 (n + 1)).signExtend N).toInt = (v.toInt + 2 ^ n) % 2 ^ (n + 1) - 2 ^ n := by
  calc ((v.extractLsb' 0 (n + 1)).signExtend N).toInt
    _ = (v.setWidth (n + 1)).toInt := by
      rw [BitVec.toInt_signExtend_of_le hn, BitVec.setWidth_eq_extractLsb' hn]
    _ = v.toInt.bmod (2 ^ (n + 1)) := by
      rw [BitVec.toInt_setWidth, BitVec.toInt_eq_toNat_bmod v, Int.bmod_bmod_of_dvd (Nat.pow_dvd_pow 2 hn)]
    _ = (v.toInt + 2 ^ n) % 2 ^ (n + 1) - 2 ^ n := bmod_two_pow_succ _ _

/-- Settles O43: unpacking returns each field, and a field's sign-extension is the reduced coordinate. -/
theorem outOfRangeCoordinatesAreReduced : Obligations.OutOfRangeCoordinatesAreReduced := by
  intro s t e
  cases (posenc_eq s).symm.trans e
  refine ⟨code_after_success _, _, posdec_eq _, ?px, ?py, ?pz⟩
  case px => rw [fields_x, lowField_signExtend_toInt (by decide)]
  case py => rw [fields_y, lowField_signExtend_toInt (by decide)]
  case pz => rw [fields_z, lowField_signExtend_toInt (by decide)]

/-- Bits 37 to 0 of the word `{a, b, c}` (R118). -/
theorem fields_below_x (a b : BitVec 26) (c : BitVec 12) :
    BitVec.extractLsb' 0 38 (a ++ (b ++ c) : BitVec 64) = b ++ c :=
  BitVec.extractLsb'_append_eq_right

/-- Bits 63 to 12 of the word `{a, b, c}` (R118). -/
theorem fields_above_y (a b : BitVec 26) (c : BitVec 12) :
    BitVec.extractLsb' 12 52 (a ++ (b ++ c) : BitVec 64) = a ++ b :=
  (congrArg (BitVec.extractLsb' 12 52) BitVec.append_assoc').trans BitVec.extractLsb'_append_eq_left

/-- Settles O44: the bits outside a field come from the other two coordinates, and a coordinate reaches `PW` through the
low bits of its field's width only. -/
theorem positionFieldsAreIsolated : Obligations.PositionFieldsAreIsolated := by
  intro s t v e
  cases (posenc_eq s).symm.trans e
  refine ⟨⟨_, posenc_eq _, ?xBelow, fun h => ?xSame⟩, ⟨_, posenc_eq _, ?zAbove, ?zBelow, fun h => ?zSame⟩,
    ⟨_, posenc_eq _, ?yAbove, fun h => ?ySame⟩⟩
  case xBelow => rw [fields_below_x, fields_below_x]
  case zAbove => rw [fields_x, fields_x]
  case zBelow => rw [fields_y, fields_y]
  case yAbove => rw [fields_above_y, fields_above_y]
  case xSame | zSame | ySame => simp only [h]

end Sys2Proof.Machine

namespace Sys2Proof.Machine

/-! Unit PD: a sign-extended field as a number (R123, R126), its range (R129), and the two round trips (R130). -/

/-- A sign-extended field reads as itself below its midpoint, and as itself less its full range from there on (R126). -/
theorem signExtend_toInt_eq_ite {n N : Nat} (hn : n + 1 ≤ N) (f : BitVec (n + 1)) :
    (f.signExtend N).toInt = if f.toNat < 2 ^ n then (f.toNat : Int) else (f.toNat : Int) - 2 ^ (n + 1) := by
  calc (f.signExtend N).toInt
    _ = f.toInt := BitVec.toInt_signExtend_of_le hn
    _ = signedField (n + 1) f.toNat := (signedField_eq_toInt (Nat.le_add_left 1 n) f).symm
    _ = if f.toNat < 2 ^ n then (f.toNat : Int) else (f.toNat : Int) - 2 ^ (n + 1) := by
      simp only [signedField, Nat.add_sub_cancel, ← not_lt, ite_not]

/-- A sign-extended field lies in the field's own signed range (R129). -/
theorem signExtend_toInt_range {n N : Nat} (hn : n + 1 ≤ N) (f : BitVec (n + 1)) :
    -2 ^ n ≤ (f.signExtend N).toInt ∧ (f.signExtend N).toInt ≤ 2 ^ n - 1 := by
  rw [BitVec.toInt_signExtend_of_le hn]
  exact ⟨f.le_toInt, Int.le_sub_one_of_lt f.toInt_lt⟩

/-- The low bits of a sign-extended field are the field (R130). -/
theorem lowField_signExtend {n N : Nat} (hn : n ≤ N) (f : BitVec n) : (f.signExtend N).extractLsb' 0 n = f := by
  apply BitVec.eq_of_getLsbD_eq
  intro i hi
  rw [BitVec.getLsbD_extractLsb', Nat.zero_add, BitVec.getLsbD_signExtend, if_pos hi]
  simp only [hi, hi.trans_le hn, decide_true, Bool.true_and]

/-- A word in the signed range of its low `n + 1` bits is their sign-extension: reducing it into that range changes
nothing (R122, R130). -/
theorem signExtend_lowField_of_inRange {n N : Nat} (hn : n + 1 ≤ N) {v : BitVec N}
    (hv : -2 ^ n ≤ v.toInt ∧ v.toInt < 2 ^ n) : (v.extractLsb' 0 (n + 1)).signExtend N = v := by
  obtain ⟨hge, hlt⟩ := hv
  apply BitVec.eq_of_toInt_eq
  calc ((v.extractLsb' 0 (n + 1)).signExtend N).toInt
    _ = (v.toInt + 2 ^ n) % 2 ^ (n + 1) - 2 ^ n := lowField_signExtend_toInt hn v
    _ = v.toInt + 2 ^ n - 2 ^ n := by rw [Int.emod_eq_of_lt (by omega) (by omega)]
    _ = v.toInt := Int.add_sub_cancel ..

/-- Settles O42. Packing what was unpacked puts each field back in its place; unpacking what was packed sign-extends
the low bits of each coordinate, and these give back a coordinate in range. -/
theorem positionRoundTrips : Obligations.PositionRoundTrips := by
  refine ⟨fun s t e => ?encodeOfDecode, fun s t e hx hy hz => ?decodeOfEncode⟩
  case encodeOfDecode =>
    cases (posdec_eq s).symm.trans e
    refine ⟨_, posenc_eq _, ?_⟩
    simp only [lowField_signExtend, Nat.reduceLeDiff, fields_self]
  case decodeOfEncode =>
    cases (posenc_eq s).symm.trans e
    refine ⟨_, posdec_eq _, ?px, ?py, ?pz⟩
    case px => rw [fields_x, signExtend_lowField_of_inRange (by decide) hx]
    case py => rw [fields_y, signExtend_lowField_of_inRange (by decide) hy]
    case pz => rw [fields_z, signExtend_lowField_of_inRange (by decide) hz]

/-- Settles O40: each of the three fields, read by the midpoint rule of its own width. -/
theorem posdecSignExtendsTheThreeFields : Obligations.PosdecSignExtendsTheThreeFields := by
  refine fun s => ⟨posdec_eq s, fun t e => ?_⟩
  cases (posdec_eq s).symm.trans e
  exact ⟨signExtend_toInt_eq_ite (by decide) _, signExtend_toInt_eq_ite (by decide) _,
    signExtend_toInt_eq_ite (by decide) _⟩

/-- Settles O41: each of the three coordinates is a sign-extended field. -/
theorem decodedCoordinatesAreInRange : Obligations.DecodedCoordinatesAreInRange := by
  intro s t e
  cases (posdec_eq s).symm.trans e
  exact ⟨signExtend_toInt_range (by decide) _, signExtend_toInt_range (by decide) _,
    signExtend_toInt_range (by decide) _⟩

end Sys2Proof.Machine

namespace Sys2Proof.Machine

/-! Faults and `STATUS` (60_exceptions.md): what can stop a step, what writes `FSEEN`, which codes a
command ends with. -/

/-- Settles O14, fault by fault. -/
theorem raiseRecordsTheFaultAndNothingElse : Obligations.RaiseRecordsTheFaultAndNothingElse :=
  fun s => ⟨fun acc n => raise_sizeExceeded acc n s, raise_bufferUnderrun s, raise_illegalCommand s⟩

/-- Settles O5. -/
theorem idleBlockHoldsItsState : Obligations.IdleBlockHoldsItsState := fun _ => step_idle

/-- The registers that no command writes, success or fault (R37, R38): `OFF`, `LEN` and `CMD`, and the model's own
three fields. -/
theorem exec_frame {i : Instr} {s t : State} (e : exec i s = .next t) :
    t = { s with vi := t.vi, vl := t.vl, cnt := t.cnt, eval := t.eval, elen := t.elen, px := t.px, py := t.py,
                 pz := t.pz, pw := t.pw, status := t.status, buf := t.buf } := by
  by_cases hok : t.code = 0
  · obtain ⟨hencvi, hencvl, hdecvi, hdecvl, hposenc, hposdec⟩ := successfulCommandWritesItsResultsOnly s t
    cases i with
    | encvi => rw [(hencvi e hok).1]
    | encvl => rw [(hencvl e hok).1]
    | decvi => rw [hdecvi e hok]
    | decvl => rw [hdecvl e hok]
    | posenc => rw [hposenc e]
    | posdec => rw [hposdec e]
    | reserved5 => cases e; exact absurd ((raise_illegalCommand_code s).symm.trans hok) (by decide)
    | reserved7 => cases e; exact absurd ((raise_illegalCommand_code s).symm.trans hok) (by decide)
  · obtain ⟨_, rfl⟩ | ⟨_, _, _, rfl⟩ | rfl | rfl := exec_fault e hok <;> rfl

/-- Settles O6. -/
theorem everyCommandEndsInANextState : Obligations.EveryCommandEndsInANextState := by
  intro i s
  obtain ⟨t, e⟩ := exec_answers_next i s
  refine ⟨t, e, ?_⟩
  rw [exec_frame e]
  exact ⟨rfl, rfl, rfl, rfl, rfl⟩

/-! What can stop a step (R150, assumption 9). -/

/-- `ADV` never stops: where the sum does not fit `OFF`, it takes a free value (assumption 8). -/
theorem hostAdv_answers_next (s : State) : ∃ t, hostAdv s = .next t := by
  rcases Nat.lt_or_ge (s.off + s.cnt.toNat) s.cfg.space with h | h
  · exact ⟨_, hostAdv_of_lt h⟩
  · exact ⟨_, hostAdv_of_le h⟩

/-- Settles O7, by cases on the host's next action; only a byte write and `BUFGET` ask whether an index exists. -/
theorem onlyForbiddenHostActionsStop : Obligations.OnlyForbiddenHostActionsStop := by
  intro s
  cases hp : s.pending with
  | nil => exact .inl ⟨_, step_idle hp⟩
  | cons action rest =>
    cases action with
    | command c =>
      rw [step_command hp]
      exact .inl (exec_answers_next _ _)
    | wr r v => exact .inl ⟨_, step_wr hp⟩
    | rd r => exact .inl ⟨_, step_rd hp⟩
    | bufWrite a b =>
      rw [step_bufWrite hp]
      rcases Nat.lt_or_ge a s.cfg.space with ha | ha
      · exact .inl ⟨_, hostBufWrite_of_lt (s := State.withPending rest s) ha b⟩
      · exact .inr ⟨hostBufWrite_of_le (s := State.withPending rest s) ha b, .inl ⟨a, b, rest, rfl, ha⟩⟩
    | bufget a n =>
      rw [step_bufget hp]
      rcases Nat.lt_or_ge s.cfg.space (a + n) with ha | ha
      · exact .inr ⟨hostBufget_of_lt (s := State.withPending rest s) ha, .inr ⟨a, n, rest, rfl, ha⟩⟩
      · exact .inl ⟨_, hostBufget_of_le (s := State.withPending rest s) ha⟩
    | bufset n bytes => exact .inl ⟨_, step_bufset hp⟩
    | adv =>
      rw [step_adv hp]
      exact .inl (hostAdv_answers_next _)
    | chk code => exact .inl ⟨_, step_chk hp⟩
    | reset => exact .inl ⟨_, step_reset hp⟩

/-! `FSEEN` (R149). -/

/-- A host byte write changes only the memory. -/
theorem hostBufWrite_frame {s t : State} {a : Nat} {b : Byte} (e : hostBufWrite a b s = .next t) :
    t = { s with buf := t.buf } := by
  rcases Nat.lt_or_ge a s.cfg.space with ha | ha
  · cases (hostBufWrite_of_lt ha b).symm.trans e
    rfl
  · cases (hostBufWrite_of_le ha b).symm.trans e

/-- `ADV` changes only `OFF` and the count of free values, whether or not the sum fits `OFF`. -/
theorem hostAdv_frame {s t : State} (e : hostAdv s = .next t) :
    t = { s with off := t.off, freeCount := t.freeCount } := by
  rcases Nat.lt_or_ge (s.off + s.cnt.toNat) s.cfg.space with h | h
  · cases (hostAdv_of_lt h).symm.trans e
    rfl
  · cases (hostAdv_of_le h).symm.trans e
    rfl

/-- `STATUS` is written by commands and by reset only. -/
theorem step_keeps_status {s t : State} (e : step s = .next t) (hcommand : ∀ c rest, s.pending ≠ .command c :: rest)
    (hreset : ∀ rest, s.pending ≠ .reset :: rest) : t.status = s.status := by
  cases hp : s.pending with
  | nil => cases (step_idle hp).symm.trans e; rfl
  | cons action rest =>
    cases action with
    | command c => exact absurd hp (hcommand c rest)
    | wr r v =>
      cases (step_wr hp).symm.trans e
      obtain ⟨_, _, _, _, _, hstatus, _⟩ := writeReg_frame r v (State.withPending rest s)
      exact hstatus
    | rd r => cases (step_rd hp).symm.trans e; rfl
    | bufWrite a b => rw [hostBufWrite_frame ((step_bufWrite hp).symm.trans e), State.withPending_status]
    | bufget a n => cases hostBufget_eq ((step_bufget hp).symm.trans e); rfl
    | bufset n bytes => cases (step_bufset hp).symm.trans e; rfl
    | adv => rw [hostAdv_frame ((step_adv hp).symm.trans e), State.withPending_status]
    | chk code => cases (step_chk hp).symm.trans e; rfl
    | reset => exact absurd hp (hreset rest)

/-- The step of a write of `CMD` treats `FSEEN` as the command does (R28). -/
theorem step_command_fseen {s t : State} {c : BitVec 3} {rest : List HostAction} (hp : s.pending = .command c :: rest)
    (e : step s = .next t) : (t.code ≠ 0 → t.fseen = true) ∧ (t.code = 0 → t.fseen = s.fseen) := by
  obtain ⟨hset, hkept, _⟩ :=
    statusIsWrittenByEveryCommandAndReadByNone _ _ _ ((step_command hp).symm.trans e)
  exact ⟨hset, hkept⟩

/-- Settles O18: a step is a command's, which sets `FSEEN` or keeps it; or reset's; or leaves `STATUS` alone. -/
theorem onlyResetClearsFseen : Obligations.OnlyResetClearsFseen := by
  refine ⟨fun s t e hseen hreset => ?kept, fun s t e ⟨rest, hp⟩ => ?cleared,
    fun s t e ⟨c, rest, hp⟩ => step_command_fseen hp e⟩
  case kept =>
    by_cases hcommand : ∃ c rest, s.pending = .command c :: rest
    · obtain ⟨c, rest, hp⟩ := hcommand
      obtain ⟨hset, hkept⟩ := step_command_fseen hp e
      by_cases hok : t.code = 0
      · exact (hkept hok).trans hseen
      · exact hset hok
    · have hstatus := step_keeps_status e (fun c rest hp => hcommand ⟨c, rest, hp⟩) hreset
      exact (congrArg (BitVec.getLsbD · 2) hstatus).trans hseen
  case cleared =>
    cases (step_reset hp).symm.trans e
    rw [State.fseen, resetBlock_status]
    exact BitVec.getLsbD_zero

/-! The codes of each command (R140). -/

/-- The codes an encode can end with, at either width. -/
theorem encodeWith_code_mem {w : Nat} (hw : 1 ≤ maxb w) (hw' : maxb w ≤ 15) (v : BitVec w) (s : State) :
    (encodeWith v s).code = 0 ∨ (encodeWith v s).code = 2 := by
  rw [encodeWith_code hw hw']
  split
  · exact .inl rfl
  · exact .inr rfl

/-- The codes a decode can end with, at either width. -/
theorem decodeWith_code_mem {w : Nat} (hm : maxb w < 15) (hp : 0 < maxb w) (put : BitVec w → State → State)
    (s : State) : (decodeWith put s).code = 0 ∨ (decodeWith put s).code = 1 ∨ (decodeWith put s).code = 2 := by
  by_cases hok : (decodeWith put s).code = 0
  · exact .inl hok
  · obtain ⟨acc, e⟩ | e := decodeWith_fault hm hp put hok <;> rw [e]
    · exact .inr (.inl code_after_sizeExceeded)
    · exact .inr (.inr code_after_bufferUnderrun)

/-- The reset state with a buffer of exactly the given bytes, the cursor at its start. -/
def State.resetWithBuffer (bytes : List Byte) : State :=
  { State.reset with buf := Memory.writeList [] 0 bytes, len := bytes.length }

/-- Settles O17. Each code occurs: 0 over a buffer of one byte `00`, which is room for the string of 0 and is that
string; 1 over ten bytes with the continuation bit set; 2 over the empty buffer. -/
theorem eachCommandEndsWithItsCodes : Obligations.EachCommandEndsWithItsCodes := by
  refine ⟨?encvi, ?encvl, ?decvi, ?decvl, ?posenc, ?posdec, ?reserved5, ?reserved7, ?encodeOccurs, ?decodeOccurs,
    ?posencOccurs, ?posdecOccurs, ?reserved5Occurs, ?reserved7Occurs⟩
  case encvi => rintro s _ ⟨⟩; exact encodeWith_code_mem (by decide) (by decide) s.vi s
  case encvl => rintro s _ ⟨⟩; exact encodeWith_code_mem (by decide) (by decide) s.vl s
  case decvi => rintro s _ ⟨⟩; exact decodeWith_code_mem (by decide) (by decide) State.putVi s
  case decvl => rintro s _ ⟨⟩; exact decodeWith_code_mem (by decide) (by decide) State.putVl s
  case posenc => rintro s _ ⟨⟩; exact State.succeed_code _
  case posdec => rintro s _ ⟨⟩; exact State.succeed_code _
  case reserved5 => rintro s _ ⟨⟩; exact raise_illegalCommand_code s
  case reserved7 => rintro s _ ⟨⟩; exact raise_illegalCommand_code s
  case encodeOccurs =>
    rintro c (rfl | rfl)
    · exact ⟨⟨.resetWithBuffer [0], _, rfl, by decide⟩, .resetWithBuffer [0], _, rfl, by decide⟩
    · exact ⟨⟨.resetWithBuffer [], _, rfl, by decide⟩, .resetWithBuffer [], _, rfl, by decide⟩
  case decodeOccurs =>
    rintro c (rfl | rfl | rfl)
    · exact ⟨⟨.resetWithBuffer [0], _, rfl, by decide⟩, .resetWithBuffer [0], _, rfl, by decide⟩
    · exact ⟨⟨.resetWithBuffer (.replicate 10 0x80), _, rfl, by decide⟩,
        .resetWithBuffer (.replicate 10 0x80), _, rfl, by decide⟩
    · exact ⟨⟨.resetWithBuffer [], _, rfl, by decide⟩, .resetWithBuffer [], _, rfl, by decide⟩
  case posencOccurs => exact ⟨.reset, _, rfl, State.succeed_code _⟩
  case posdecOccurs => exact ⟨.reset, _, rfl, State.succeed_code _⟩
  case reserved5Occurs => exact ⟨.reset, _, rfl, raise_illegalCommand_code _⟩
  case reserved7Occurs => exact ⟨.reset, _, rfl, raise_illegalCommand_code _⟩

end Sys2Proof.Machine

namespace Sys2Proof.Machine

/-! Reset and hazards (70_reset_and_hazards.md): what reset leaves, how much room a command needs and leaves, what a
decode makes of a failed encode's prefix, and that issuing a command again changes nothing. -/

/-- Settles O8: with `LEN` 0 every index is at or beyond it. -/
theorem resetWritesZeroAndKeepsTheBuffer : Obligations.ResetWritesZeroAndKeepsTheBuffer := by
  refine fun s rest hp => ⟨step_reset hp, fun t e => ?_⟩
  cases (step_reset hp).symm.trans e
  exact ⟨rfl, BitVec.getLsbD_zero, fun a => State.memRead_of_le a.zero_le⟩

/-! Room for an encode, and where the cursor stands after a success (R167, R172). -/

section
variable {w : Nat} (hw : 1 ≤ maxb w) (hw' : maxb w ≤ 15) {v : BitVec w} {s : State}
include hw hw'

/-- `MAXB(W)` bytes of room hold every string of the width (R93), so an encode with them succeeds (R167). -/
theorem encodeWith_success_of_room (h : s.off + maxb w ≤ s.len ∨ s.off + encLength v.toNat ≤ s.len) :
    (encodeWith v s).code = 0 := by
  have hmax : encLength v.toNat ≤ maxb w := encLength_le hw (toNat_lt_pow_maxb v)
  rw [encodeWith_code hw hw', if_pos (by omega)]

theorem encodeWith_success_cursor_le (hok : (encodeWith v s).code = 0) :
    s.off + (encodeWith v s).cnt.toNat ≤ s.len := by
  rw [encodeWith_success_cnt hw hw' hok]
  exact fits_of_encodeWith_success hw hw' hok

end

/-- The last byte a successful decode reads is below `LEN`. -/
theorem decodeWith_success_cursor_le {w : Nat} (hm : maxb w < 15) (hp : 0 < maxb w) {put : BitVec w → State → State}
    {s : State} (hok : (decodeWith put s).code = 0) : s.off + (decodeWith put s).cnt.toNat ≤ s.len := by
  obtain ⟨n, hn, _, _, hin, e⟩ := decodeWith_success_string hm hp hok
  have hcnt : (decodeWith put s).cnt.toNat = n + 1 := by rw [e]; exact ofNat4_toNat (by omega)
  rw [hcnt]
  exact hin

/-- Settles O26, at each of the two widths. -/
theorem encodeWithRoomSucceeds : Obligations.EncodeWithRoomSucceeds :=
  fun _ => ⟨fun h => ⟨_, rfl, encodeWith_success_of_room (by decide) (by decide) h⟩,
    fun h => ⟨_, rfl, encodeWith_success_of_room (by decide) (by decide) h⟩⟩

/-- A successful command of unit VE or VD leaves `u(OFF) + u(CNT)` at most `u(LEN)` (R172). -/
theorem exec_success_cursor_le {i : Instr} {s t : State} (hi : i = .encvi ∨ i = .encvl ∨ i = .decvi ∨ i = .decvl)
    (e : exec i s = .next t) (hok : t.code = 0) : t.off + t.cnt.toNat ≤ t.len := by
  have hoff : t.off = s.off := by rw [exec_frame e]
  have hlen : t.len = s.len := by rw [exec_frame e]
  rw [hoff, hlen]
  obtain rfl | rfl | rfl | rfl := hi <;> cases e
  · exact encodeWith_success_cursor_le (by decide) (by decide) hok
  · exact encodeWith_success_cursor_le (by decide) (by decide) hok
  · exact decodeWith_success_cursor_le (by decide) (by decide) hok
  · exact decodeWith_success_cursor_le (by decide) (by decide) hok

/-- Settles O38: the sum is at most `LEN`, which the invariant keeps below `2^AW`, so `ADV` takes it. -/
theorem cursorFitsAfterASuccess : Obligations.CursorFitsAfterASuccess := by
  intro i s t hinv hi e hok
  have hcursor := exec_success_cursor_le hi e hok
  obtain ⟨⟨_, _, hlen, _⟩, _⟩ := exec_keeps_inv hinv e
  exact ⟨hcursor, hlen, fun rest => (step_adv rfl).trans
    (hostAdv_of_lt (s := State.withPending rest t) (hcursor.trans_lt hlen))⟩

/-! A decode of the prefix that a failed encode left (R170). -/

/-- Where every byte from `OFF` to the end of the buffer has its continuation bit set, a decode runs to its limit or to
that end (R106). -/
theorem decodeWith_code_of_all_continued {w : Nat} (hm : maxb w < 15) (hp : 0 < maxb w)
    (put : BitVec w → State → State) {s : State} (hcont : ∀ k, k < s.avail → contBit (s.stringByte k) = true) :
    (decodeWith put s).code = if maxb w ≤ s.avail then 1 else 2 := by
  obtain ⟨_, hsize, hunder⟩ := decodeWith_outcome_of_leading hm hp put s
  have hlead : s.leading (min s.avail (maxb w)) = min s.avail (maxb w) :=
    State.leading_of_all fun k hk => hcont k (by omega)
  split
  · exact hsize (by omega)
  · exact hunder (by omega) (by omega)

section
variable {w : Nat} (hw : 1 ≤ maxb w) (hw' : maxb w ≤ 15) {v : BitVec w} {s : State}
include hw hw'

/-- The prefix that a failed encode leaves is shorter than its string, which has at most `MAXB(W)` bytes (R92). -/
theorem room_lt_maxb_of_encodeWith_underrun (hc : (encodeWith v s).code = 2) : s.len - s.off < maxb w := by
  have hover := (encodeWith_underrun_iff hw hw' (v := v) (s := s)).mpr ⟨_, rfl, hc⟩
  have hpos : 1 ≤ encLength v.toNat := encLength_pos _
  have hmax : encLength v.toNat ≤ maxb w := encLength_le hw (toNat_lt_pow_maxb v)
  omega

/-- A decode, of either width `w'`, after an encode that failed: every byte of the prefix is continued (R92). -/
theorem decodeWith_code_after_encodeWith_underrun (hm : Memory.wf s.buf = true) (hc : (encodeWith v s).code = 2)
    {w' : Nat} (hd : maxb w' < 15) (hd' : 0 < maxb w') (put : BitVec w' → State → State) :
    (decodeWith put (encodeWith v s)).code = if maxb w' ≤ s.len - s.off then 1 else 2 := by
  have hover := (encodeWith_underrun_iff hw hw' (v := v) (s := s)).mpr ⟨_, rfl, hc⟩
  obtain ⟨_, hprefix, _⟩ := encodeWith_stores_what_fits hw hw' hm hover
  have havail : (encodeWith v s).avail = s.len - s.off := by rw [encodeWith_frame hw hw']; rfl
  rw [← havail]
  refine decodeWith_code_of_all_continued hd hd' put fun k hk => ?_
  obtain ⟨hread, hcont⟩ := hprefix k (by rw [State.accessIndex]; omega)
  rw [State.stringByte, encodeWith_accessIndex hw hw', hread, hcont]

end

/-- Settles O36: the prefix is shorter than 5 bytes after an ENCVI and than 10 after an ENCVL, so of the four decodes
only a DECVI after an ENCVL can reach its own limit. -/
theorem decodeOfAFailedEncodesPrefixFaults : Obligations.DecodeOfAFailedEncodesPrefixFaults := by
  refine fun s t hm hc => ⟨?encvi, ?encvl⟩
  case encvi =>
    rintro ⟨⟩
    have hshort : s.len - s.off < 5 := room_lt_maxb_of_encodeWith_underrun (by decide) (by decide) hc
    have hcode := @decodeWith_code_after_encodeWith_underrun _ (by decide) (by decide) _ _ hm hc
    exact ⟨⟨_, rfl, (hcode (by decide) (by decide) State.putVi).trans (if_neg hshort.not_ge)⟩,
      _, rfl, (hcode (by decide) (by decide) State.putVl).trans (if_neg (show ¬ 10 ≤ s.len - s.off by omega))⟩
  case encvl =>
    rintro ⟨⟩
    have hshort : s.len - s.off < 10 := room_lt_maxb_of_encodeWith_underrun (by decide) (by decide) hc
    have hcode := @decodeWith_code_after_encodeWith_underrun _ (by decide) (by decide) _ _ hm hc
    exact ⟨⟨_, rfl, (hcode (by decide) (by decide) State.putVl).trans (if_neg hshort.not_ge)⟩,
      _, rfl, hcode (by decide) (by decide) State.putVi⟩

/-! Issuing a command again (R180). -/

/-- Writing the same bytes at the same place again changes nothing. -/
theorem Memory.writeList_again {m : Memory} (hw : Memory.wf m = true) (a : Nat) (bs : List Byte) :
    Memory.writeList (Memory.writeList m a bs) a bs = Memory.writeList m a bs := by
  have hw' := Memory.wf_writeList hw a bs
  refine Memory.ext (Memory.wf_writeList hw' a bs) hw' fun x => ?_
  by_cases hx : x < a ∨ a + bs.length ≤ x
  · exact Memory.read_writeList_other _ _ _ hx
  · obtain ⟨k, rfl⟩ := Nat.exists_eq_add_of_le (show a ≤ x by omega)
    have hk : k < bs.length := by omega
    rw [Memory.read_writeList_at hw' a bs hk, Memory.read_writeList_at hw a bs hk]

theorem statusAfterSuccess_again (status : BitVec 3) :
    statusAfterSuccess (statusAfterSuccess status) = statusAfterSuccess status := by
  rw [statusAfterSuccess, statusAfterSuccess, BitVec.and_assoc, BitVec.and_self]

theorem State.succeed_succeed (s : State) : s.succeed.succeed = s.succeed := by
  rw [State.succeed_eq, State.succeed_eq, statusAfterSuccess_again]

/-- An encode writes neither its operand nor what decides how much of its string fits. -/
theorem encodeWith_again {w : Nat} (hw : 1 ≤ maxb w) (hw' : maxb w ≤ 15) (v : BitVec w) {s : State}
    (hm : Memory.wf s.buf = true) : encodeWith v (encodeWith v s) = encodeWith v s := by
  rw [encodeWith_eq hw hw' v s]
  by_cases hfit : s.off + encLength v.toNat ≤ s.len
  · rw [if_pos hfit, encodeWith_eq hw hw', if_pos hfit, Memory.writeList_again hm, statusAfterSuccess_again]
  · rw [if_neg hfit, encodeWith_eq hw hw', if_neg hfit, Memory.writeList_again hm]

/-- A decode that keeps `OFF`, `LEN` and the buffer reads the same string again. `hput`: writing the result register
again changes nothing. -/
theorem decodeWith_again {w : Nat} (hm : maxb w < 15) (hp : 0 < maxb w) {put : BitVec w → State → State} {s : State}
    (hoff : (decodeWith put s).off = s.off) (hlen : (decodeWith put s).len = s.len)
    (hbuf : (decodeWith put s).buf = s.buf)
    (hput : ∀ v c, put v ({ put v s with cnt := c }).succeed = ({ put v s with cnt := c }).succeed) :
    decodeWith put (decodeWith put s) = decodeWith put s := by
  have hbytes : ∀ k, k < maxb w → s.stringByte k = (decodeWith put s).stringByte k := fun k _ => by
    rw [State.stringByte, State.stringByte, State.accessIndex, State.accessIndex, hoff, hbuf]
  obtain ⟨v, c, e, e'⟩ | ⟨acc, e, e'⟩ | ⟨e, e'⟩ := decodeWith_congr hoff.symm hlen.symm put hm hp hbytes
  · rw [e', e, hput]
    exact State.succeed_succeed { put v s with cnt := c }
  · rw [e', e]
  · rw [e', e]

/-- Settles O47, command by command: none writes an operand of its own, and what it writes is the same again. -/
theorem repeatingACommandChangesNothing : Obligations.RepeatingACommandChangesNothing := by
  intro i s t hm e
  cases i with
  | encvi =>
    cases e
    have hvi : (encodeWith s.vi s).vi = s.vi := by rw [encodeWith_frame (by decide) (by decide)]
    exact congrArg Host.Outcome.next
      ((congrArg (encodeWith · _) hvi).trans (encodeWith_again (by decide) (by decide) s.vi hm))
  | encvl =>
    cases e
    have hvl : (encodeWith s.vl s).vl = s.vl := by rw [encodeWith_frame (by decide) (by decide)]
    exact congrArg Host.Outcome.next
      ((congrArg (encodeWith · _) hvl).trans (encodeWith_again (by decide) (by decide) s.vl hm))
  | decvi =>
    obtain ⟨hframe, _⟩ := (decodeChangesOnlyItsResults s t).1 e
    cases e
    exact congrArg Host.Outcome.next (decodeWith_again (by decide) (by decide) (by rw [hframe])
      (by rw [hframe]) (by rw [hframe]) fun _ _ => rfl)
  | decvl =>
    obtain ⟨hframe, _⟩ := (decodeChangesOnlyItsResults s t).2 e
    cases e
    exact congrArg Host.Outcome.next (decodeWith_again (by decide) (by decide) (by rw [hframe])
      (by rw [hframe]) (by rw [hframe]) fun _ _ => rfl)
  | posenc =>
    cases (posenc_eq s).symm.trans e
    rw [posenc_eq, BitVec.and_assoc, BitVec.and_self]
  | posdec =>
    cases (posdec_eq s).symm.trans e
    rw [posdec_eq, BitVec.and_assoc, BitVec.and_self]
  | reserved5 =>
    cases e
    rw [reserved5_eq, raise_illegalCommand, raise_illegalCommand]
  | reserved7 =>
    cases e
    rw [reserved7_eq, raise_illegalCommand, raise_illegalCommand]

end Sys2Proof.Machine
